-- ==== Sys2Proof/Word.lean ====
section
/-! DEFINITION. The word types of the unit. A bit's number counts from the least significant bit, bit 0
(00_scope.md R8); every field is unsigned (R9, R61). -/

namespace Sys2Proof

/-- One byte of storage (00_scope.md R7, `BYTE`). -/
abbrev Byte := BitVec 8

/-- A 64-bit word: a command word, a response word, or a word of storage (00_scope.md R7, `WORD`). -/
abbrev Word := BitVec 64

/-- A length, an index, a range's end, or PUT's value: a field of `LEN_W = 24` bits (00_scope.md R7). -/
abbrev Field24 := BitVec 24

/-- A slot number, a field of 4 bits (30_encoding.md R60). -/
abbrev SlotNo := BitVec 4

end Sys2Proof
end

