-- ==== Sys2Proof/Config.lean ====
section
/-! DEFINITION. The implementation parameters of 00_scope.md R7. `LAT` has no definition: no rule depends
on it and the model counts no time (R237; log entry 2). -/

namespace Sys2Proof.Config

/-- `LEN_MAX = 2^24 - 1`, the largest length (R7). -/
def lenMax : Nat := 2 ^ 24 - 1

/-- `CAPW = ceil(LEN_MAX / 64)`, the words of one slot's storage (R7). -/
def capW : Nat := 262144

/-- `CAPB = 8 * CAPW`, the bytes of one slot's storage (R7). -/
def capB : Nat := 8 * capW

/-- `CAPBITS = 64 * CAPW`, the bits of one slot's storage (R7). -/
def capBits : Nat := 64 * capW

/-- `NSLOT` is an integer in 1..16 (R7, decision D1). -/
abbrev legalNslot (n : Nat) : Prop := 1 ≤ n ∧ n ≤ 16

/-- DESIGN CHOICE, unsafe (log entry 1): the number of slots of `State.reset`. The spec leaves `NSLOT`
open; every other definition takes it from the length of the bank. -/
def resetNslot : Nat := 16

end Sys2Proof.Config
end

