-- ==== Sys2Proof/Syntax.lean ====
section
/-! DEFINITION. The eleven commands of `BA-CMD64` (30_encoding.md R64), one constructor per row of
spec/opcode_table.json. -/

namespace Sys2Proof

/-- A command with the fields it uses (30_encoding.md R64); the fields it does not use are required zero
and are no part of it. -/
inductive Instr where
  /-- `NEW s<sa>, <length>` (R100). -/
  | new (sa : SlotNo) (length : Field24)
  /-- `LEN s<sa>` (R101). -/
  | len (sa : SlotNo)
  /-- `GET s<sa>, <index>` (R120). -/
  | get (sa : SlotNo) (index : Field24)
  /-- `PUT s<sa>, <index>, <value>` (R121). -/
  | put (sa : SlotNo) (index value : Field24)
  /-- `SET s<sa>, <low>, <high>` (R134). -/
  | set (sa : SlotNo) (low high : Field24)
  /-- `CLEAR s<sa>, <low>, <high>` (R135). -/
  | clear (sa : SlotNo) (low high : Field24)
  /-- `NOT s<sa>, <low>, <high>` (R136). -/
  | not (sa : SlotNo) (low high : Field24)
  /-- `COUNT s<sa>` (R151). -/
  | count (sa : SlotNo)
  /-- `EQ s<sa>, s<sb>` (R161). -/
  | eq (sa sb : SlotNo)
  /-- `LEQ s<sa>, s<sb>` (R162). -/
  | leq (sa sb : SlotNo)
  /-- `LT s<sa>, s<sb>` (R163). -/
  | lt (sa sb : SlotNo)
deriving DecidableEq, Repr

end Sys2Proof
end

