-- ==== Sys2Proof/WellFormed.lean ====
section
/-! DEFINITION. Which commands a unit with a given number of slots has: a command names only slots of the
bank (30_encoding.md R64, R69). The widths of the fields are in their types. -/

namespace Sys2Proof

/-- Every slot a command names is below `nslot` (30_encoding.md R69): SA for every command, and SB for EQ,
LEQ and LT. -/
def Instr.wellFormed (nslot : Nat) : Instr → Bool
  | .new sa _ => decide (sa.toNat < nslot)
  | .len sa => decide (sa.toNat < nslot)
  | .get sa _ => decide (sa.toNat < nslot)
  | .put sa _ _ => decide (sa.toNat < nslot)
  | .set sa _ _ => decide (sa.toNat < nslot)
  | .clear sa _ _ => decide (sa.toNat < nslot)
  | .not sa _ _ => decide (sa.toNat < nslot)
  | .count sa => decide (sa.toNat < nslot)
  | .eq sa sb => decide (sa.toNat < nslot) && decide (sb.toNat < nslot)
  | .leq sa sb => decide (sa.toNat < nslot) && decide (sb.toNat < nslot)
  | .lt sa sb => decide (sa.toNat < nslot) && decide (sb.toNat < nslot)

end Sys2Proof
end

