-- ==== Sys2Proof/Decode.lean ====
section
/-! DEFINITION. The command word: its fields (30_encoding.md R60, R61), the decoder (R66 to R69), the
encoder (R64) and the opcode map's match and mask (R64). -/

namespace Sys2Proof

/-! ### Fields of a command word (R60) -/

/-- OP, bits [63:60]. -/
def cmdOp (cw : Word) : BitVec 4 := cw.extractLsb' 60 4
/-- SA, bits [59:56]. -/
def cmdSa (cw : Word) : SlotNo := cw.extractLsb' 56 4
/-- SB, bits [55:52]. -/
def cmdSb (cw : Word) : SlotNo := cw.extractLsb' 52 4
/-- RSV, bits [51:48]. -/
def cmdRsv (cw : Word) : BitVec 4 := cw.extractLsb' 48 4
/-- A, bits [47:24]. -/
def cmdA (cw : Word) : Field24 := cw.extractLsb' 24 24
/-- B, bits [23:0]. -/
def cmdB (cw : Word) : Field24 := cw.extractLsb' 0 24

/-! ### Opcodes (R64) -/

/-- The commands' opcodes (R64). -/
inductive Opcode where
  | new | len | get | put | set | clear | not | count | eq | leq | lt
deriving DecidableEq, Repr

/-- OP of each command (R64). -/
def Opcode.code : Opcode → BitVec 4
  | .new => 0x1 | .len => 0x2 | .get => 0x3 | .put => 0x4 | .set => 0x5 | .clear => 0x6
  | .not => 0x7 | .count => 0x8 | .eq => 0x9 | .leq => 0xA | .lt => 0xB

/-- The command an OP field names; none for 0x0 and 0xC to 0xF, which are reserved (R67). -/
def opcodeOf (op : BitVec 4) : Option Opcode :=
  match op.toNat with
  | 0x1 => some .new
  | 0x2 => some .len
  | 0x3 => some .get
  | 0x4 => some .put
  | 0x5 => some .set
  | 0x6 => some .clear
  | 0x7 => some .not
  | 0x8 => some .count
  | 0x9 => some .eq
  | 0xA => some .leq
  | 0xB => some .lt
  | _ => none

/-- The commands that use SB (R64). -/
def Opcode.usesSb : Opcode → Bool
  | .eq | .leq | .lt => true
  | .new | .len | .get | .put | .set | .clear | .not | .count => false

/-- The commands that use A (R64). -/
def Opcode.usesA : Opcode → Bool
  | .new | .get | .put | .set | .clear | .not => true
  | .len | .count | .eq | .leq | .lt => false

/-- The commands that use B (R64). -/
def Opcode.usesB : Opcode → Bool
  | .put | .set | .clear | .not => true
  | .new | .len | .get | .count | .eq | .leq | .lt => false

/-- The `match` column of the opcode map (R64). -/
def Opcode.matchWord : Opcode → Word
  | .new => 0x1000000000000000
  | .len => 0x2000000000000000
  | .get => 0x3000000000000000
  | .put => 0x4000000000000000
  | .set => 0x5000000000000000
  | .clear => 0x6000000000000000
  | .not => 0x7000000000000000
  | .count => 0x8000000000000000
  | .eq => 0x9000000000000000
  | .leq => 0xA000000000000000
  | .lt => 0xB000000000000000

/-- The `mask` column of the opcode map (R64). -/
def Opcode.maskWord : Opcode → Word
  | .new => 0xF0FF000000FFFFFF
  | .len => 0xF0FFFFFFFFFFFFFF
  | .get => 0xF0FF000000FFFFFF
  | .put => 0xF0FF000000000000
  | .set => 0xF0FF000000000000
  | .clear => 0xF0FF000000000000
  | .not => 0xF0FF000000000000
  | .count => 0xF0FFFFFFFFFFFFFF
  | .eq => 0xF00FFFFFFFFFFFFF
  | .leq => 0xF00FFFFFFFFFFFFF
  | .lt => 0xF00FFFFFFFFFFFFF

/-- The opcode of a command. -/
def Instr.opcode : Instr → Opcode
  | .new _ _ => .new
  | .len _ => .len
  | .get _ _ => .get
  | .put _ _ _ => .put
  | .set _ _ _ => .set
  | .clear _ _ _ => .clear
  | .not _ _ _ => .not
  | .count _ => .count
  | .eq _ _ => .eq
  | .leq _ _ => .leq
  | .lt _ _ => .lt

/-! ### Decoding (R66) -/

/-- Why a word is ILLEGAL (30_encoding.md R67, R68, R69). -/
inductive Illegal where
  /-- Opcode 0x0 or 0xC to 0xF (R67). -/
  | reservedOpcode
  /-- RSV, or a field the command does not use, is not 0 (R68). -/
  | nonzeroUnusedField
  /-- A slot number at or above `NSLOT` (R69). -/
  | noSuchSlot
deriving DecidableEq, Repr

/-- The command with opcode `op` and the operands of `cw`, each field's value as it stands (R61). -/
def buildInstr (op : Opcode) (cw : Word) : Instr :=
  match op with
  | .new => .new (cmdSa cw) (cmdA cw)
  | .len => .len (cmdSa cw)
  | .get => .get (cmdSa cw) (cmdA cw)
  | .put => .put (cmdSa cw) (cmdA cw) (cmdB cw)
  | .set => .set (cmdSa cw) (cmdA cw) (cmdB cw)
  | .clear => .clear (cmdSa cw) (cmdA cw) (cmdB cw)
  | .not => .not (cmdSa cw) (cmdA cw) (cmdB cw)
  | .count => .count (cmdSa cw)
  | .eq => .eq (cmdSa cw) (cmdSb cw)
  | .leq => .leq (cmdSa cw) (cmdSb cw)
  | .lt => .lt (cmdSa cw) (cmdSb cw)

/-- `decode(cw)` of 30_encoding.md R66, for a unit of `nslot` slots: total, its checks in R66's order. -/
def decode (nslot : Nat) (cw : Word) : Except Illegal Instr :=
  match opcodeOf (cmdOp cw) with
  | none => .error .reservedOpcode
  | some op =>
    if cmdRsv cw ≠ 0 then .error .nonzeroUnusedField
    else if op.usesSb = false ∧ cmdSb cw ≠ 0 then .error .nonzeroUnusedField
    else if op.usesA = false ∧ cmdA cw ≠ 0 then .error .nonzeroUnusedField
    else if op.usesB = false ∧ cmdB cw ≠ 0 then .error .nonzeroUnusedField
    else if nslot ≤ (cmdSa cw).toNat then .error .noSuchSlot
    else if op.usesSb = true ∧ nslot ≤ (cmdSb cw).toNat then .error .noSuchSlot
    else .ok (buildInstr op cw)

/-! ### Encoding (R60, R64) -/

/-- A command word from its fields: OP ++ SA ++ SB ++ RSV ++ A ++ B, RSV being 0 (R60). -/
def packCmd (op : BitVec 4) (sa sb : SlotNo) (a b : Field24) : Word :=
  op ++ sa ++ sb ++ (0 : BitVec 4) ++ a ++ b

/-- The command word of a command: the fields it uses, every other field 0 (R64). -/
def encode (i : Instr) : Word :=
  match i with
  | .new sa length => packCmd i.opcode.code sa 0 length 0
  | .len sa => packCmd i.opcode.code sa 0 0 0
  | .get sa index => packCmd i.opcode.code sa 0 index 0
  | .put sa index value => packCmd i.opcode.code sa 0 index value
  | .set sa low high => packCmd i.opcode.code sa 0 low high
  | .clear sa low high => packCmd i.opcode.code sa 0 low high
  | .not sa low high => packCmd i.opcode.code sa 0 low high
  | .count sa => packCmd i.opcode.code sa 0 0 0
  | .eq sa sb => packCmd i.opcode.code sa sb 0 0
  | .leq sa sb => packCmd i.opcode.code sa sb 0 0
  | .lt sa sb => packCmd i.opcode.code sa sb 0 0

/-! ### Words on a narrower link (20_memory.md R42) -/

/-- The bytes of a word in the order an integration sends them on a byte-wide link: "the least
significant part first" (R42). -/
def serialise (w : Word) : List Byte := (List.range 8).map fun j => w.extractLsb' (8 * j) 8

/-- The word whose bytes arrive in `bytes`, the least significant first (R42). -/
def deserialise : List Byte → Word
  | [] => 0
  | b :: rest => b.setWidth 64 ||| (deserialise rest <<< 8)

/-! ### The host's question about the opcode table -/

/-- The `nbits` bits the table gives a row, as the 64-bit command word they are (every command is exactly
one 64-bit word, R71, and crosses the port as a value, R42). -/
def tableWord (nbits w : Nat) : Word := BitVec.ofNat 64 (w % 2 ^ nbits)

/-- What the decoder reads from the word `w` in the unit `State.reset` describes. -/
def decodeTableWord (nbits w : Nat) : Option Instr :=
  match decode Config.resetNslot (tableWord nbits w) with
  | .ok i => some i
  | .error _ => none

end Sys2Proof
end

