-- ==== Sys2Proof/Machine/State.lean ====
section
/-! DEFINITION. The state of the unit (10_state.md R20 to R33), the host's pending moves (70 R238), why a
step could stop, and the state after reset (70 R230). Plain data throughout. -/

namespace Sys2Proof.Machine

/-- The storage of one slot: bytes 0 to `CAPB - 1` (10_state.md R22), as (address, byte) pairs with
addresses strictly rising and no byte 0. An unlisted byte is 0x00, the content after reset (R22). -/
abbrev Memory := List Host.Cell

/-- One slot: the 24-bit length register `len[s]` (10_state.md R21) and the storage `st[s]` (R22). -/
structure Slot where
  len : Field24
  st : Memory
deriving DecidableEq, Repr

/-- What the host can do (70_reset_and_hazards.md R238), and making no move. -/
inductive HostMove where
  /-- Offer a command word to the port. -/
  | issue (cw : Word)
  /-- Take the response word in `rbuf`. -/
  | take
  /-- Assert the reset input. -/
  | reset
  /-- Make no move while the unit makes one. -/
  | wait
deriving DecidableEq, Repr

/-- The whole machine. `slots`, `rbuf`, `inFlight` and `accepted` are the unit's; `taken` and `host` are the
model's record of the other side of the port. -/
structure State where
  /-- The bank of `NSLOT` slots (10_state.md R20): its length is `NSLOT`. -/
  slots : List Slot
  /-- The response buffer: Empty or Full with one response word (R31). -/
  rbuf : Option Word
  /-- The command accepted and not yet answered, `Busy(cw)` of 70 R234; hidden state (10 R32). -/
  inFlight : Option Word
  /-- How many commands have been accepted since reset: the position in program order (10 R28). -/
  accepted : Nat
  /-- The model's own: the responses taken since reset, oldest first (00 R17; log entry 5). -/
  taken : List Word
  /-- The model's own: the moves the host has still to make, the next one first (log entry 3). -/
  host : List HostMove
deriving DecidableEq, Repr

/-- Why the machine stops with a fault: it never does. "Nothing can put the unit into a stopped or faulted
state" (60_exceptions.md R207), so there is no constructor. Safe (log entry 11). -/
inductive Fault where
deriving DecidableEq, Repr

/-- Why a step is refused. -/
inductive Refusal where
  /-- Raised by an arm of `exec` for a command that has no meaning yet; none is left. Safe. -/
  | notModelled (mnemonic : String)
deriving DecidableEq, Repr

/-- The empty array every slot holds after reset (70 R230). -/
def Slot.empty : Slot := { len := 0, st := [] }

/-- The reset state of a unit with `nslot` slots and nothing pending at the host (70 R230, R232). -/
def State.resetOf (nslot : Nat) : State :=
  { slots := List.replicate nslot Slot.empty
    rbuf := none
    inFlight := none
    accepted := 0
    taken := []
    host := [] }

/-- The machine right after reset (70 R230). The number of slots is DESIGN CHOICE (log entry 1). -/
def State.reset : State := State.resetOf Config.resetNslot

/-- `NSLOT` (00 R7): the number of slots of the bank. -/
def State.nslot (s : State) : Nat := s.slots.length

/-- What a meaning, an operation or a step answers. -/
abbrev Result := Host.Outcome State Fault Refusal

end Sys2Proof.Machine
end

