-- ==== Sys2Proof/Machine/Flags.lean ====
section
/-! DEFINITION. The unit has no flags, condition codes or predicates (10_state.md R29). The STATUS of a
response is its only condition indicator: the status codes (30_encoding.md R63), the errors that raise them
(60_exceptions.md R200), and the response word that carries them (30 R62). -/

namespace Sys2Proof.Machine

/-- The status codes that are ever produced (30_encoding.md R63). -/
inductive Status where
  | ok | outOfRange | invalidRange | illegalCommand
deriving DecidableEq, Repr

/-- The 4-bit code of a status (30_encoding.md R63). -/
def Status.code : Status → BitVec 4
  | .ok => 0
  | .outOfRange => 1
  | .invalidRange => 2
  | .illegalCommand => 3

/-- `zext_64(status) << 60 | zext_64(P) << 24 | zext_64(R)` (30_encoding.md R62). -/
def responseWord (status : Status) (p r : Field24) : Word :=
  (status.code.setWidth 64 <<< 60) ||| (p.setWidth 64 <<< 24) ||| r.setWidth 64

/-- STATUS of a response word, bits [63:60] (30_encoding.md R62). -/
def respStatus (w : Word) : BitVec 4 := w.extractLsb' 60 4
/-- The reserved bits [59:48] of a response word (30_encoding.md R62). -/
def respReserved (w : Word) : BitVec 12 := w.extractLsb' 48 12
/-- P of a response word, bits [47:24] (30_encoding.md R62). -/
def respP (w : Word) : Field24 := w.extractLsb' 24 24
/-- R of a response word, bits [23:0] (30_encoding.md R62). -/
def respR (w : Word) : Field24 := w.extractLsb' 0 24

/-- A condition as the R field carries it: 1 for true, 0 for false (30_encoding.md R62). -/
def boolField (b : Bool) : Field24 := if b then 1 else 0

/-- The errors a command can end in (60_exceptions.md R200). -/
inductive CommandError where
  /-- An index, or an end of a range, is not below the length: `raise OutOfRange(i, L)` (R201). -/
  | outOfRange (index length : Field24)
  /-- A range's low end exceeds its high end: `raise InvalidRange()` (R202). -/
  | invalidRange
  /-- The word spells no command: `raise IllegalCommand()` (R203). -/
  | illegalCommand
deriving DecidableEq, Repr

/-- The response word of each error, with what it records (60_exceptions.md R200 to R203). -/
def CommandError.response : CommandError → Word
  | .outOfRange index length => responseWord .outOfRange index length
  | .invalidRange => responseWord .invalidRange 0 0
  | .illegalCommand => responseWord .illegalCommand 0 0

end Sys2Proof.Machine
end

