-- ==== Sys2Proof/Machine/Operands.lean ====
section
/-! DEFINITION. Operands. Every operand is a field of the command word (10_state.md R27, 30_encoding.md
R61); an index and a range are validated against the slot's length before storage is touched
(41_validation.md R110, R111, R112). -/

namespace Sys2Proof.Machine

/-- `CheckIndex` (41_validation.md R110): the error, or none if the index is valid. -/
def checkIndex (len index : Field24) : Option CommandError :=
  if len.toNat ≤ index.toNat then some (.outOfRange index len) else none

/-- `CheckRange` (41_validation.md R111): the first check that fails, in the rule's order. -/
def checkRange (len low high : Field24) : Option CommandError :=
  if high.toNat < low.toNat then some .invalidRange
  else if len.toNat ≤ low.toNat then some (.outOfRange low len)
  else if len.toNat ≤ high.toNat then some (.outOfRange high len)
  else none

end Sys2Proof.Machine
end

