-- ==== Sys2Proof/Machine/Ops.lean ====
section
/-! DEFINITION. The named operations every meaning is written over: storage bytes, bits and words
(20_memory.md R40, R41), the bank of slots, the response that ends a command (00_scope.md R11), the one way
an error is raised (60_exceptions.md R206) and the return from it, the host taking the response (R207). -/

namespace Sys2Proof.Machine

/-! ### Storage bytes -/

/-- One byte of storage; an unlisted byte is 0x00 (10_state.md R22). -/
def memRead : Memory → Nat → Byte
  | [], _ => 0
  | (a, b) :: m, k => if a = k then b else memRead m k

/-- `m` with byte `b` listed at `k` in front of it; a byte 0 is not listed. -/
def consByte (k : Nat) (b : Byte) (m : Memory) : Memory := if b = 0 then m else (k, b) :: m

/-- `mapBytes` where every listed address is at or above `k`. -/
def mapBytesFrom (f : Byte → Byte) : Nat → Nat → Memory → Memory
  | 0, _, m => m
  | n + 1, k, [] => consByte k (f 0) (mapBytesFrom f n (k + 1) [])
  | n + 1, k, (a, b) :: m =>
    if a = k then consByte k (f b) (mapBytesFrom f n (k + 1) m)
    else consByte k (f 0) (mapBytesFrom f n (k + 1) ((a, b) :: m))

/-- Bytes `k` to `k + n - 1`, each replaced by its value under `f`: the loop
`for j in k .. k+n-1: MemWrite(s, j, 1, f(MemRead(s, j, 1)))` (00_scope.md R11), in one pass
(log entry 9). -/
def mapBytes (f : Byte → Byte) (k n : Nat) : Memory → Memory
  | [] => mapBytesFrom f n k []
  | (a, b) :: m => if a < k then (a, b) :: mapBytes f k n m else mapBytesFrom f n k ((a, b) :: m)

/-- `MemWrite(s, k, 1, b)` (00_scope.md R11). -/
def memWrite (m : Memory) (k : Nat) (b : Byte) : Memory := mapBytes (fun _ => b) k 1 m

/-- Storage with every byte 0x00: what NEW writes (40_construction.md R100) and reset leaves (70 R230). -/
def memZero : Memory := []

/-- The canonical form above a lower bound `lo`. -/
def cellsWf : Nat → Memory → Bool
  | _, [] => true
  | lo, (a, b) :: m =>
    decide (lo ≤ a) && decide (a < Config.capB) && decide (b ≠ 0) && cellsWf (a + 1) m

/-- The one canonical form of storage: addresses strictly rising and below `CAPB`, no byte listed that
reads as an unlisted one. -/
def Memory.wf (m : Memory) : Bool := cellsWf 0 m

/-! ### Bits and words -/

/-- Bit `i`: bit `i mod 8` of byte `i div 8` (20_memory.md R40). -/
def bitAt (m : Memory) (i : Nat) : Bool := (memRead m (i / 8)).getLsbD (i % 8)

/-- Word `w`: bytes `8w` to `8w + 7`, byte `8w` the least significant (20_memory.md R41). -/
def memWord (m : Memory) (w : Nat) : Word :=
  memRead m (8 * w + 7) ++ memRead m (8 * w + 6) ++ memRead m (8 * w + 5) ++ memRead m (8 * w + 4) ++
    memRead m (8 * w + 3) ++ memRead m (8 * w + 2) ++ memRead m (8 * w + 1) ++ memRead m (8 * w)

/-- `nwords(L) = ceil(L / 64)` (00_scope.md R12). -/
def nwords (len : Nat) : Nat := (len + 63) / 64

/-- `nbytes(L) = 8 * nwords(L)`, the size of the buffer (00_scope.md R12, 10_state.md R23). -/
def nbytes (len : Nat) : Nat := 8 * nwords len

/-- The words of a slot's buffer, in order, padding included (10_state.md R23). -/
def bufferWords (v : Slot) : List Word := (List.range (nwords v.len.toNat)).map (memWord v.st)

/-- `popcount(v)`: how many `k` in `0 .. n-1` have `v[k] = 1` (44_popcount.md R150). -/
def popcount {n : Nat} (v : BitVec n) : Nat := (List.range n).countP fun k => v.getLsbD k

/-! ### The mask tables and the byte operations of the ranged commands (43_ranged.md R130, R131) -/

/-- `ABOVE[k] = (0xFF << k) & 0xFF`: the bits at or above bit `k` (43_ranged.md R130). -/
def maskAbove (k : Nat) : Byte := 0xFF#8 <<< k

/-- `BELOW[k] = 0xFF >> (7 - k)`: the bits at or below bit `k` (43_ranged.md R130). -/
def maskBelow (k : Nat) : Byte := 0xFF#8 >>> (7 - k)

/-- The three ranged operations. -/
inductive RangeOp where
  | set | clear | not
deriving DecidableEq, Repr

/-- The byte operation under a mask (43_ranged.md R131). -/
def RangeOp.applyByte (op : RangeOp) (b m : Byte) : Byte :=
  match op with
  | .set => b ||| m
  | .clear => b &&& ~~~m
  | .not => b ^^^ m

/-- What the operation makes of one bit of its range: `f_op` of 43_ranged.md R133. -/
def RangeOp.applyBit (op : RangeOp) (x : Bool) : Bool :=
  match op with
  | .set => true
  | .clear => false
  | .not => !x

/-- Steps 2 to 4 of `RangeApply` (43_ranged.md R132) on one slot's storage. -/
def rangeMem (op : RangeOp) (m : Memory) (low high : Nat) : Memory :=
  let lb := low / 8
  let hb := high / 8
  if lb = hb then
    memWrite m lb (op.applyByte (memRead m lb) (maskAbove (low % 8) &&& maskBelow (high % 8)))
  else
    let m1 := memWrite m lb (op.applyByte (memRead m lb) (maskAbove (low % 8)))
    let m2 := mapBytes (fun b => op.applyByte b 0xFF) (lb + 1) (hb - (lb + 1)) m1
    memWrite m2 hb (op.applyByte (memRead m2 hb) (maskBelow (high % 8)))

/-- The write of PUT (42_single_bit.md R121): bit `i` becomes 1 if `v` is not 0, else 0. -/
def putBit (m : Memory) (i : Nat) (v : Field24) : Memory :=
  let k := i / 8
  let mask : Byte := 0x01#8 <<< (i % 8)
  let old := memRead m k
  memWrite m k (if v ≠ 0 then old ||| mask else old &&& ~~~mask)

/-! ### The bank of slots -/

/-- Slot `n` of the bank; none if the bank has no such slot. -/
def State.slotAt (s : State) (n : SlotNo) : Option Slot := s.slots[n.toNat]?

/-- The bank with slot `n` holding `v`; every other slot as before (10_state.md R33). -/
def State.setSlot (s : State) (n : SlotNo) (v : Slot) : State := { s with slots := s.slots.set n.toNat v }

/-! ### Ending a command -/

/-- The state in which the command in flight has ended with the response word `w`: Idle, `rbuf` Full
(70_reset_and_hazards.md R234). -/
def State.answered (s : State) (w : Word) : State := { s with rbuf := some w, inFlight := none }

/-- `respond(status, P, R)`: "produce the response word and end the command" (00_scope.md R11). -/
def respond (status : Status) (p r : Field24) (s : State) : Result :=
  .next (s.answered (responseWord status p r))

/-- Raising an error (60_exceptions.md R201 to R203, R206): its response ends the command. Nothing is
saved, no mode changes, and no slot changes. -/
def raiseError (e : CommandError) (s : State) : Result := .next (s.answered e.response)

/-- The return from an error, as from an OK response (60_exceptions.md R207): the host takes the response
word and `rbuf` becomes Empty (10_state.md R31). -/
def takeResponse (r : Word) (s : State) : State := { s with rbuf := none, taken := s.taken ++ [r] }

/-- Run `k` on slot `n`. A command that names a slot the bank does not have is ILLEGAL (30_encoding.md
R69); the decoder has refused its word already (log entry 7). -/
def withSlot (n : SlotNo) (s : State) (k : Slot → Result) : Result :=
  match s.slotAt n with
  | some v => k v
  | none => raiseError .illegalCommand s

/-- Run `k` unless a check has failed: validation before mutation (41_validation.md R112). -/
def guarded (check : Option CommandError) (s : State) (k : Result) : Result :=
  match check with
  | some e => raiseError e s
  | none => k

/-! ### The shared algorithms of the families -/

/-- `RangeApply(op, s, low, high)` (43_ranged.md R132). -/
def rangeApply (op : RangeOp) (sa : SlotNo) (low high : Field24) (s : State) : Result :=
  withSlot sa s fun v =>
    guarded (checkRange v.len low high) s
      (respond .ok 0 0 (s.setSlot sa { v with st := rangeMem op v.st low.toNat high.toNat }))

/-- `Compare(sa, sb)` (45_comparison.md R160): a length mismatch answers 0; otherwise the verdict on the
two buffers' words, word by word. -/
def compareSlots (verdict : List (Word × Word) → Bool) (sa sb : SlotNo) (s : State) : Result :=
  withSlot sa s fun a =>
    withSlot sb s fun b =>
      if a.len ≠ b.len then respond .ok 0 0 s
      else respond .ok 0 (boolField (verdict ((bufferWords a).zip (bufferWords b)))) s

/-- Every word is bit-identical (45_comparison.md R161). -/
def allEqual (ps : List (Word × Word)) : Bool := ps.all fun p => p.1 == p.2

/-- In every word `self AND (NOT other)` is 0 (45_comparison.md R162). -/
def allSubset (ps : List (Word × Word)) : Bool := ps.all fun p => p.1 &&& ~~~p.2 == 0

/-- Some word differs (45_comparison.md R163). -/
def someDiffers (ps : List (Word × Word)) : Bool := ps.any fun p => p.1 != p.2

end Sys2Proof.Machine
end

