-- ==== Sys2Proof/Machine/Comparison.lean ====
section
/-! DEFINITION. EQ, LEQ and LT (45_comparison.md). -/

namespace Sys2Proof.Machine

/-- EQ (R161): every word of the two buffers is the same. -/
def execEq (sa sb : SlotNo) (s : State) : Result := compareSlots allEqual sa sb s

/-- LEQ (R162): every 1 bit of `sa` is a 1 bit of `sb`. -/
def execLeq (sa sb : SlotNo) (s : State) : Result := compareSlots allSubset sa sb s

/-- LT (R163): LEQ holds and some word differs. -/
def execLt (sa sb : SlotNo) (s : State) : Result :=
  compareSlots (fun ps => allSubset ps && someDiffers ps) sa sb s

end Sys2Proof.Machine
end

