-- ==== Sys2Proof/Machine/Construction.lean ====
section
/-! DEFINITION. NEW and LEN (40_construction.md). -/

namespace Sys2Proof.Machine

/-- NEW (R100): the slot's length becomes `length` and its whole capacity 0. -/
def execNew (sa : SlotNo) (length : Field24) (s : State) : Result :=
  withSlot sa s fun _ => respond .ok 0 0 (s.setSlot sa { len := length, st := memZero })

/-- LEN (R101): answers the slot's length. -/
def execLen (sa : SlotNo) (s : State) : Result :=
  withSlot sa s fun v => respond .ok 0 v.len s

end Sys2Proof.Machine
end

