-- ==== Sys2Proof/Machine/Popcount.lean ====
section
/-! DEFINITION. COUNT (44_popcount.md). -/

namespace Sys2Proof.Machine

/-- The sum of the words' population counts over the buffer, padding included (R151). -/
def slotCount (v : Slot) : Nat := ((bufferWords v).map popcount).sum

/-- COUNT (R151): answers the number of 1 bits. Under INV the sum fits R (R152; log entry 8). -/
def execCount (sa : SlotNo) (s : State) : Result :=
  withSlot sa s fun v => respond .ok 0 (BitVec.ofNat 24 (slotCount v)) s

end Sys2Proof.Machine
end

