-- ==== Sys2Proof/Machine/Ranged.lean ====
section
/-! DEFINITION. SET, CLEAR and NOT (43_ranged.md). -/

namespace Sys2Proof.Machine

/-- SET (R134): forces bits `low` to `high` to 1. -/
def execSet (sa : SlotNo) (low high : Field24) (s : State) : Result := rangeApply .set sa low high s

/-- CLEAR (R135): forces bits `low` to `high` to 0. -/
def execClear (sa : SlotNo) (low high : Field24) (s : State) : Result := rangeApply .clear sa low high s

/-- NOT (R136): flips bits `low` to `high`. -/
def execNot (sa : SlotNo) (low high : Field24) (s : State) : Result := rangeApply .not sa low high s

end Sys2Proof.Machine
end

