-- ==== Sys2Proof/Machine/SingleBit.lean ====
section
/-! DEFINITION. GET and PUT (42_single_bit.md). -/

namespace Sys2Proof.Machine

/-- GET (R120): answers bit `index`. -/
def execGet (sa : SlotNo) (index : Field24) (s : State) : Result :=
  withSlot sa s fun v =>
    guarded (checkIndex v.len index) s
      (respond .ok 0 (boolField (bitAt v.st index.toNat)) s)

/-- PUT (R121): writes bit `index`, any nonzero value writing 1, and answers the bit before the write. -/
def execPut (sa : SlotNo) (index value : Field24) (s : State) : Result :=
  withSlot sa s fun v =>
    guarded (checkIndex v.len index) s
      (respond .ok 0 (boolField (bitAt v.st index.toNat))
        (s.setSlot sa { v with st := putBit v.st index.toNat value }))

end Sys2Proof.Machine
end

