-- ==== Sys2Proof/Machine/Dispatch.lean ====
section
/-! DEFINITION. The one dispatch from a command to its meaning. -/

namespace Sys2Proof.Machine

def exec (i : Instr) (s : State) : Host.Outcome State Fault Refusal :=
  match i with
  | .new sa length => Sys2Proof.Machine.execNew sa length s
  | .len sa => Sys2Proof.Machine.execLen sa s
  | .get sa index => Sys2Proof.Machine.execGet sa index s
  | .put sa index value => Sys2Proof.Machine.execPut sa index value s
  | .set sa low high => Sys2Proof.Machine.execSet sa low high s
  | .clear sa low high => Sys2Proof.Machine.execClear sa low high s
  | .not sa low high => Sys2Proof.Machine.execNot sa low high s
  | .count sa => Sys2Proof.Machine.execCount sa s
  | .eq sa sb => Sys2Proof.Machine.execEq sa sb s
  | .leq sa sb => Sys2Proof.Machine.execLeq sa sb s
  | .lt sa sb => Sys2Proof.Machine.execLt sa sb s

end Sys2Proof.Machine
end

