-- ==== Sys2Proof/Machine/Protocol.lean ====
section
/-! DEFINITION. The transaction protocol between the host and the unit (70_reset_and_hazards.md R230 to
R235, R238). Each transition of R234's cycle is one step (log entry 2). -/

namespace Sys2Proof.Machine

/-- Reset (R230, R231, R232): every slot a valid empty array, `rbuf` Empty, no command in flight, program
order at 0. Any command in flight and any untaken response are abandoned. `rest` is what the host has still
to do. -/
def resetUnit (s : State) (rest : List HostMove) : State :=
  { State.resetOf s.nslot with host := rest }

/-- `Idle, rbuf = Empty --> Busy(cw)`: the unit accepts a command word (R234), which advances the position
in program order by one (10_state.md R28). -/
def acceptCommand (cw : Word) (s : State) : State :=
  { s with inFlight := some cw, accepted := s.accepted + 1 }

/-- The execution of a command word, all at once (R234; 20_memory.md R46): decoding comes before all
validation, and a word that spells no command raises ILLEGAL_COMMAND (30_encoding.md R66). -/
def executeWord (cw : Word) (s : State) : Result :=
  match decode s.nslot cw with
  | .ok i => exec i s
  | .error _ => raiseError .illegalCommand s

/-- A step of a busy unit: it executes its command. A host that makes no move has then made none; one that
offers a word or wants a response goes on waiting (R238). -/
def busyStep (cw : Word) (s : State) : Result :=
  match s.host with
  | .wait :: rest => executeWord cw { s with host := rest }
  | _ => executeWord cw s

/-- A step of an idle unit. A word is accepted only while `rbuf` is Empty (R234) and a response is taken
only once it is there; a move that cannot happen yet waits and nothing changes (R235, R238; log entry 4). -/
def idleStep (s : State) : State :=
  match s.host, s.rbuf with
  | .issue cw :: rest, none => acceptCommand cw { s with host := rest }
  | .issue _ :: _, some _ => s
  | .take :: rest, some r => takeResponse r { s with host := rest }
  | .take :: _, none => s
  | .wait :: rest, _ => { s with host := rest }
  | .reset :: rest, _ => resetUnit s rest
  | [], _ => s

/-- One transition of the unit and its host. Reset comes first, whatever the unit does (R231, R238). -/
def transition (s : State) : Result :=
  match s.host with
  | .reset :: rest => .next (resetUnit s rest)
  | _ =>
    match s.inFlight with
    | some cw => busyStep cw s
    | none => .next (idleStep s)

/-- The host's list with no reset in front. -/
def dropResets : List HostMove → List HostMove
  | .reset :: rest => dropResets rest
  | moves => moves

/-- `s` with the word `cw` accepted, so that the next transition executes it: nothing left in `rbuf`, and
no reset asserted (log entry 6). -/
def placeCommand (cw : Word) (s : State) : State :=
  { s with inFlight := some cw, rbuf := none, host := dropResets s.host }

end Sys2Proof.Machine
end

