-- ==== Sys2Proof/Machine/Step.lean ====
section
/-! DEFINITION. One step of the machine: one transition of the protocol of 70_reset_and_hazards.md R234. -/

namespace Sys2Proof.Machine

/-- One transition of the unit and its host (70 R234, R238). -/
def step (s : State) : Host.Outcome State Fault Refusal := transition s

/-- `s` with the table's word accepted as the command in flight, which the next step executes. -/
def State.withFetchWord (s : State) (nbits w : Nat) : State := placeCommand (tableWord nbits w) s

end Sys2Proof.Machine
end

