-- ==== Sys2Proof/Machine/Assembler.lean ====
section
/-! DEFINITION. The assembler: the pseudo-instructions (30_encoding.md R73) and the text syntax, one command
per line (R72). The syntax "is a spelling only. The command word is normative" (decision D19). What R72
leaves open of the text (blanks, leading zeros) is log entry 10. -/

namespace Sys2Proof.Machine

/-- The pseudo-instructions (30_encoding.md R73). -/
inductive Pseudo where
  | setbit (s : SlotNo) (i : Field24)
  | clrbit (s : SlotNo) (i : Field24)
  | flip (s : SlotNo) (i : Field24)
  | setall (s : SlotNo) (n : Field24)
  | clrall (s : SlotNo) (n : Field24)
  | notall (s : SlotNo) (n : Field24)
  | geq (sa sb : SlotNo)
  | gt (sa sb : SlotNo)
  | toarray (s : SlotNo) (n : Field24)
deriving DecidableEq, Repr

/-- The expansion of a pseudo-instruction (30_encoding.md R73); none where the assembler refuses it. -/
def Pseudo.expand : Pseudo → Option (List Instr)
  | .setbit s i => some [.put s i 1]
  | .clrbit s i => some [.put s i 0]
  | .flip s i => some [.not s i i]
  | .setall s n => if n = 0 then none else some [.set s 0 (n - 1)]
  | .clrall s n => if n = 0 then none else some [.clear s 0 (n - 1)]
  | .notall s n => if n = 0 then none else some [.not s 0 (n - 1)]
  | .geq sa sb => some [.leq sb sa]
  | .gt sa sb => some [.lt sb sa]
  | .toarray s n => some ((List.range n.toNat).map fun i => .get s (BitVec.ofNat 24 i))

/-! ### Text -/

/-- A blank between words of a line (log entry 10). -/
def isBlank (c : Char) : Bool := c == ' ' || c == '\t'

/-- The line without its comment: `;` starts one that runs to the end of the line (R72). -/
def stripComment (line : List Char) : List Char := line.takeWhile fun c => c != ';'

/-- A text without the blanks at its two ends. -/
def trim (t : List Char) : List Char := ((t.dropWhile isBlank).reverse.dropWhile isBlank).reverse

/-- The texts between the commas. -/
def splitCommas : List Char → List (List Char)
  | [] => [[]]
  | c :: rest =>
    match splitCommas rest with
    | [] => [[c]]
    | t :: ts => if c == ',' then [] :: t :: ts else (c :: t) :: ts

/-- The canonical spelling of a mnemonic: mnemonics are case-insensitive (R72). -/
def upper (c : Char) : Char :=
  if 'a'.toNat ≤ c.toNat ∧ c.toNat ≤ 'z'.toNat then Char.ofNat (c.toNat - 32) else c

/-- The value of a digit in a base of 10 or 16. -/
def digit (base : Nat) (c : Char) : Option Nat :=
  let v :=
    if '0'.toNat ≤ c.toNat ∧ c.toNat ≤ '9'.toNat then c.toNat - '0'.toNat
    else if 'A'.toNat ≤ (upper c).toNat ∧ (upper c).toNat ≤ 'F'.toNat then (upper c).toNat - 'A'.toNat + 10
    else base
  if v < base then some v else none

/-- The value of a text of digits after `acc`. -/
def digits (base acc : Nat) : List Char → Option Nat
  | [] => some acc
  | c :: rest =>
    match digit base c with
    | some v => digits base (acc * base + v) rest
    | none => none

/-- A number, decimal or `0x` hexadecimal (R72). -/
def natOf : List Char → Option Nat
  | [] => none
  | '0' :: 'x' :: [] => none
  | '0' :: 'x' :: rest => digits 16 0 rest
  | text => digits 10 0 text

/-- A number in `0..2^24 - 1`; the assembler refuses a number outside that range (R72). -/
def numberOf (text : List Char) : Option Field24 :=
  match natOf text with
  | some v => if v < 2 ^ 24 then some (BitVec.ofNat 24 v) else none
  | none => none

/-- A slot, `s0` to `s15`; the assembler refuses any other number, and does not check `NSLOT` (R72). -/
def slotOf : List Char → Option SlotNo
  | 's' :: c :: rest =>
    match digits 10 0 (c :: rest) with
    | some v => if v < 16 then some (BitVec.ofNat 4 v) else none
    | none => none
  | _ => none

/-- The operands of a command with one slot. -/
def oneSlot (mk : SlotNo → Option (List Instr)) : List (List Char) → Option (List Instr)
  | [a] => (slotOf a).bind mk
  | _ => none

/-- The operands of a command with one slot and one number. -/
def slotNumber (mk : SlotNo → Field24 → Option (List Instr)) : List (List Char) → Option (List Instr)
  | [a, b] => (slotOf a).bind fun s => (numberOf b).bind fun n => mk s n
  | _ => none

/-- The operands of a command with one slot and two numbers. -/
def slotTwoNumbers (mk : SlotNo → Field24 → Field24 → Option (List Instr)) :
    List (List Char) → Option (List Instr)
  | [a, b, c] =>
    (slotOf a).bind fun s => (numberOf b).bind fun m => (numberOf c).bind fun n => mk s m n
  | _ => none

/-- The operands of a command with two slots. -/
def twoSlots (mk : SlotNo → SlotNo → Option (List Instr)) : List (List Char) → Option (List Instr)
  | [a, b] => (slotOf a).bind fun s => (slotOf b).bind fun t => mk s t
  | _ => none

/-- The commands of a line with mnemonic `mn` in capitals and the operand texts `ops` (R72, R73). -/
def assembleOp (mn : List Char) (ops : List (List Char)) : Option (List Instr) :=
  if mn = ['N', 'E', 'W'] then slotNumber (fun s n => some [.new s n]) ops
  else if mn = ['L', 'E', 'N'] then oneSlot (fun s => some [.len s]) ops
  else if mn = ['G', 'E', 'T'] then slotNumber (fun s n => some [.get s n]) ops
  else if mn = ['P', 'U', 'T'] then slotTwoNumbers (fun s i v => some [.put s i v]) ops
  else if mn = ['S', 'E', 'T'] then slotTwoNumbers (fun s l h => some [.set s l h]) ops
  else if mn = ['C', 'L', 'E', 'A', 'R'] then slotTwoNumbers (fun s l h => some [.clear s l h]) ops
  else if mn = ['N', 'O', 'T'] then slotTwoNumbers (fun s l h => some [.not s l h]) ops
  else if mn = ['C', 'O', 'U', 'N', 'T'] then oneSlot (fun s => some [.count s]) ops
  else if mn = ['E', 'Q'] then twoSlots (fun a b => some [.eq a b]) ops
  else if mn = ['L', 'E', 'Q'] then twoSlots (fun a b => some [.leq a b]) ops
  else if mn = ['L', 'T'] then twoSlots (fun a b => some [.lt a b]) ops
  else if mn = ['S', 'E', 'T', 'B', 'I', 'T'] then slotNumber (fun s i => (Pseudo.setbit s i).expand) ops
  else if mn = ['C', 'L', 'R', 'B', 'I', 'T'] then slotNumber (fun s i => (Pseudo.clrbit s i).expand) ops
  else if mn = ['F', 'L', 'I', 'P'] then slotNumber (fun s i => (Pseudo.flip s i).expand) ops
  else if mn = ['S', 'E', 'T', 'A', 'L', 'L'] then slotNumber (fun s n => (Pseudo.setall s n).expand) ops
  else if mn = ['C', 'L', 'R', 'A', 'L', 'L'] then slotNumber (fun s n => (Pseudo.clrall s n).expand) ops
  else if mn = ['N', 'O', 'T', 'A', 'L', 'L'] then slotNumber (fun s n => (Pseudo.notall s n).expand) ops
  else if mn = ['G', 'E', 'Q'] then twoSlots (fun a b => (Pseudo.geq a b).expand) ops
  else if mn = ['G', 'T'] then twoSlots (fun a b => (Pseudo.gt a b).expand) ops
  else if mn = ['T', 'O', 'A', 'R', 'R', 'A', 'Y'] then
    slotNumber (fun s n => (Pseudo.toarray s n).expand) ops
  else none

/-- One line of the assembly syntax (R72): the commands it stands for, none if the assembler refuses it. A
line that holds only a comment or blanks stands for no command. -/
def assembleLine (line : List Char) : Option (List Instr) :=
  let text := trim (stripComment line)
  match text.takeWhile (fun c => !isBlank c) with
  | [] => some []
  | mn => assembleOp (mn.map upper) ((splitCommas (text.dropWhile fun c => !isBlank c)).map trim)

end Sys2Proof.Machine
end

