-- ==== Sys2Proof/Machine/HostProgram.lean ====
section
/-! DEFINITION. The host's side of a run: a host program chooses each command from the responses so far
(10_state.md R28, 70_reset_and_hazards.md R239), and ToArray is such a program (46_export.md R170). Nothing
here is state of the machine. -/

namespace Sys2Proof.Machine

/-- `n` transitions, stopping where the machine stops. -/
def stepN : Nat → State → Result
  | 0, s => .next s
  | n + 1, s =>
    match step s with
    | .next t => stepN n t
    | .fault r => .fault r
    | .refused r => .refused r

/-- One transaction (70 R234): the host offers `cw` and takes the response. From an idle unit with `rbuf`
Empty these are three transitions: accept, execute, take. -/
def transaction (cw : Word) (s : State) : Result :=
  stepN 3 { s with host := [.issue cw, .take] }

/-- A host that issues the words of a list in order, taking every response (95_test_vectors.md, programs). -/
def issueAll : List Word → List HostMove
  | [] => []
  | cw :: rest => .issue cw :: .take :: issueAll rest

/-- A host program: its next command word from the responses taken so far, or none when it ends
(70 R239). -/
abbrev HostProgram := List Word → Option Word

/-- A run of at most `n` commands of a host program (70 R239). -/
def runHost (p : HostProgram) : Nat → State → Result
  | 0, s => .next s
  | n + 1, s =>
    match p s.taken with
    | none => .next s
    | some cw =>
      match transaction cw s with
      | .next t => runHost p n t
      | .fault r => .fault r
      | .refused r => .refused r

/-- `ToArray(s)` (46_export.md R170), for a host that has already taken `base` responses: LEN, then GET for
each index below the length LEN answered. -/
def toArrayProgram (sa : SlotNo) (base : Nat) : HostProgram := fun taken =>
  match taken.drop base with
  | [] => some (encode (.len sa))
  | l :: elements =>
    if elements.length < (respR l).toNat then
      some (encode (.get sa (BitVec.ofNat 24 elements.length)))
    else none

/-- The elements `ToArray` returns, from the responses to its commands: the R field of each response but
the first (46_export.md R170). -/
def toArrayElements (responses : List Word) : List Field24 := responses.tail.map respR

end Sys2Proof.Machine
end

