-- ==== Sys2Proof/Safety.lean ====
section
/-! DEFINITION. What claims are stated in: the invariant INV (10_state.md R25), the state a model run may
start from (70_reset_and_hazards.md R240), and when a host's run has ended (R239). -/

namespace Sys2Proof.Machine

/-- INV for one slot (10_state.md R25): every bit at or beyond the length is 0, padding and unused capacity
alike. -/
def Slot.Padded (v : Slot) : Prop :=
  ∀ i : Nat, v.len.toNat ≤ i → i < Config.capBits → bitAt v.st i = false

/-- A slot as every reachable state has it: canonical storage, and INV. -/
structure Slot.Sound (v : Slot) : Prop where
  canonical : v.st.wf = true
  padded : v.Padded

/-- The invariant of every reachable state: `NSLOT` legal (00 R7), every slot sound (10 R25), at most one of
a command in flight and an untaken response (70 R234), and one response for every accepted command
(20 R54), counted on the model's record of the responses taken, which reset empties (log entry 5). -/
structure State.Inv (s : State) : Prop where
  nslot : Config.legalNslot s.nslot
  slots : ∀ v ∈ s.slots, v.Sound
  oneAtATime : s.inFlight = none ∨ s.rbuf = none
  everyCommandAnswered :
    s.accepted = s.taken.length + s.rbuf.toList.length + s.inFlight.toList.length

/-- A state a model run may start from, besides reset (70 R240): INV, `rbuf` Empty, no command in flight. -/
structure State.Launch (s : State) : Prop where
  inv : s.Inv
  empty : s.rbuf = none
  idle : s.inFlight = none

/-- A host's run has ended (70 R239): no move left, `rbuf` Empty, no command in flight. -/
def State.runEnded (s : State) : Prop := s.host = [] ∧ s.rbuf = none ∧ s.inFlight = none

/-- The storage bit a claim may speak of: bit `i` of slot `n`, 0 where the bank has no such slot. -/
def State.bit (s : State) (n : SlotNo) (i : Nat) : Bool :=
  match s.slotAt n with
  | some v => bitAt v.st i
  | none => false

/-- The slots a command names: SA, and for EQ, LEQ and LT also SB (30_encoding.md R61, R64). -/
def slotsNamed : Instr → List SlotNo
  | .new sa _ => [sa]
  | .len sa => [sa]
  | .get sa _ => [sa]
  | .put sa _ _ => [sa]
  | .set sa _ _ => [sa]
  | .clear sa _ _ => [sa]
  | .not sa _ _ => [sa]
  | .count sa => [sa]
  | .eq sa sb => [sa, sb]
  | .leq sa sb => [sa, sb]
  | .lt sa sb => [sa, sb]

/-- The slot a command may write (20_memory.md R44): none for the six commands that write nothing. -/
def slotWritten : Instr → Option SlotNo
  | .new sa _ => some sa
  | .put sa _ _ => some sa
  | .set sa _ _ => some sa
  | .clear sa _ _ => some sa
  | .not sa _ _ => some sa
  | .len _ => none
  | .get _ _ => none
  | .count _ => none
  | .eq _ _ => none
  | .leq _ _ => none
  | .lt _ _ => none

/-- The indices a command is validated on, in the order they are checked (41_validation.md R110, R111). -/
def indexOperands : Instr → List Field24
  | .get _ index => [index]
  | .put _ index _ => [index]
  | .set _ low high => [low, high]
  | .clear _ low high => [low, high]
  | .not _ low high => [low, high]
  | .new _ _ => []
  | .len _ => []
  | .count _ => []
  | .eq _ _ => []
  | .leq _ _ => []
  | .lt _ _ => []

/-- A response word as 30_encoding.md R62 and R63 allow one, whatever the command: the reserved bits 0, a
status that is produced, P 0 but on OUT_OF_RANGE, R 0 on INVALID_RANGE and ILLEGAL_COMMAND. -/
structure LegalResponse (w : Word) : Prop where
  reserved : respReserved w = 0
  status : (respStatus w).toNat ≤ 3
  p : respStatus w ≠ 1 → respP w = 0
  r : respStatus w = 2 ∨ respStatus w = 3 → respR w = 0

/-- `t` is `s` but for slot `sa` and the ended command's `rbuf` and `inFlight`: no other slot, not the
number of slots, not the position in program order, not the host's side. -/
structure State.SameOutside (s t : State) (sa : SlotNo) : Prop where
  nslot : t.nslot = s.nslot
  others : ∀ n, n ≠ sa → t.slotAt n = s.slotAt n
  accepted : t.accepted = s.accepted
  taken : t.taken = s.taken
  host : t.host = s.host

/-- The command in flight has ended with the response word `w`: `rbuf` is Full with it, the unit Idle. -/
def State.endedWith (t : State) (w : Word) : Prop := t.rbuf = some w ∧ t.inFlight = none

end Sys2Proof.Machine
end

