-- ==== Sys2Proof/Certificates/Slice0/Obligations.lean ====
section
/-! DEFINITION. The statements for the provers, from the numbered rules of spec/. Each docstring names the
rule a statement formalises. A slot's storage is read through `memRead` (a byte) and `bitAt` (a bit); INV and
the canonical form stand as premises only where a statement fails without them. -/

open Sys2Proof Sys2Proof.Machine

/-! ### Reset and the invariant -/

/-- 70_reset_and_hazards.md R230: what reset leaves, whatever the unit was doing. `taken` is the model's own
record, emptied by reset (log entry 5), and `host` the moves that remain (log entry 3). -/
def Obligations.ResetLeavesEverySlotEmptyAndUnitIdle : Prop :=
  ∀ (s : State) (rest : List HostMove), s.host = .reset :: rest →
    ∃ t, step s = .next t ∧ t.nslot = s.nslot ∧
      (∀ v ∈ t.slots, v.len = 0 ∧ (∀ k, memRead v.st k = 0) ∧ v.Sound) ∧
      t.rbuf = none ∧ t.inFlight = none ∧ t.accepted = 0 ∧ t.taken = [] ∧ t.host = rest

/-- 10_state.md R26, first sentence, with the rest of `State.Inv`: it holds at reset, for every legal NSLOT,
the model's choice of 16 (log entry 1) among them. Its clause on the number of responses reads the model's own
record of those taken, which is empty at reset (log entry 5). -/
def Obligations.ResetStateSatisfiesInvariant : Prop :=
  (∀ n, Config.legalNslot n → (State.resetOf n).Inv) ∧ State.reset.Inv

/-- 10_state.md R25, R26, and the protocol's invariant (70 R234, 20 R54): every step of the machine, a
host's move or reset among them, keeps `State.Inv`. Its clause `everyCommandAnswered` is the model's: it counts
the record `taken`, and a reset keeps it only because the model's reset empties that record, of which no rule
speaks (log entry 5). The host's moves stand in a list of the model's (log entry 3). -/
def Obligations.EveryStepKeepsInvariant : Prop :=
  ∀ s t : State, s.Inv → step s = .next t → t.Inv

/-- 10_state.md R25, R26: every command keeps the canonical form of the storage and INV, in every slot. -/
def Obligations.EveryCommandKeepsStorageSound : Prop :=
  ∀ (i : Instr) (s t : State), (∀ v ∈ s.slots, v.Sound) → exec i s = .next t → ∀ v ∈ t.slots, v.Sound

/-- 60_exceptions.md R207 ("Nothing can put the unit into a stopped or faulted state") and 20 R54: every
command ends in exactly one response with the unit idle, and every step of the machine goes on. -/
def Obligations.NothingStopsTheUnit : Prop :=
  (∀ (i : Instr) (s : State), ∃ t w, exec i s = .next t ∧ t.endedWith w ∧
      t.accepted = s.accepted ∧ t.taken = s.taken ∧ t.host = s.host) ∧
    ∀ s : State, ∃ t, step s = .next t ∧ t.nslot = s.nslot

/-! ### The protocol -/

/-- 70_reset_and_hazards.md R234, its first and third lines: acceptance, only by an idle unit whose `rbuf`
is Empty, and the taking of a response. Whatever else an idle unit's host does but reset (it makes no move,
has none left, offers a word while `rbuf` is Full, wants a response while `rbuf` is Empty), the step goes on
and every slot is as it was; a move that cannot happen yet waits. The host's list of moves, where a taken
response is recorded and that a host waits for a missing response are the model's choices (log entries 3, 5
and 4). -/
def Obligations.AcceptAndTakeTransitions : Prop :=
  (∀ (s : State) (cw : Word) (rest : List HostMove), s.host = .issue cw :: rest →
      s.inFlight = none → s.rbuf = none →
      step s = .next { s with inFlight := some cw, accepted := s.accepted + 1, host := rest }) ∧
    (∀ (s : State) (r : Word) (rest : List HostMove), s.host = .take :: rest →
      s.inFlight = none → s.rbuf = some r →
      step s = .next { s with rbuf := none, taken := s.taken ++ [r], host := rest }) ∧
    (∀ (s t : State), step s = .next t → t.accepted = s.accepted + 1 → s.inFlight = none ∧ s.rbuf = none) ∧
    (∀ (s : State) (rest : List HostMove), s.host = .wait :: rest → s.inFlight = none →
      step s = .next { s with host := rest }) ∧
    (∀ (s : State) (cw r : Word) (rest : List HostMove), s.host = .issue cw :: rest → s.inFlight = none →
      s.rbuf = some r → step s = .next s) ∧
    (∀ (s : State) (rest : List HostMove), s.host = .take :: rest → s.inFlight = none → s.rbuf = none →
      step s = .next s) ∧
    (∀ s : State, s.host = [] → s.inFlight = none → step s = .next s) ∧
    ∀ s : State, s.inFlight = none → (∀ rest, s.host ≠ .reset :: rest) →
      ∃ t, step s = .next t ∧ t.slots = s.slots

/-- 70_reset_and_hazards.md R234 ("Every state change of a command happens at its execution step") and R238
(the host has no path to a slot but commands and reset): a step that changes a slot is a reset, or the
execution of a word that decodes to NEW, PUT, SET, CLEAR or NOT, and then it changes only the slot that
command writes. The host's list of moves is the model's choice (log entry 3). -/
def Obligations.OnlyCommandsAndResetChangeSlots : Prop :=
  ∀ (s t : State) (n : SlotNo), step s = .next t → t.slotAt n ≠ s.slotAt n →
    (∃ rest, s.host = .reset :: rest) ∨
      ∃ cw i, s.inFlight = some cw ∧ decode s.nslot cw = .ok i ∧ slotWritten i = some n

/-- 70_reset_and_hazards.md R234, its second line: a busy unit executes the word it accepted. When the word
decodes to a command, the step is that command's `exec`; when it does not, it answers ILLEGAL_COMMAND
(30_encoding.md R66). A host whose next move is `wait` has then made it; that and the host's list are the
model's choice (log entry 3), and so is `withFetchWord`, which stands for a word just accepted (log entry
6). -/
def Obligations.StepRunsTheDecodedCommand : Prop :=
  (∀ (s : State) (cw : Word) (i : Instr), s.inFlight = some cw → decode s.nslot cw = .ok i →
      (∀ rest, s.host ≠ .reset :: rest) → (∀ rest, s.host ≠ .wait :: rest) → step s = exec i s) ∧
    (∀ (s : State) (cw : Word) (i : Instr) (rest : List HostMove), s.inFlight = some cw →
      decode s.nslot cw = .ok i → s.host = .wait :: rest → step s = exec i { s with host := rest }) ∧
    (∀ (s : State) (cw : Word) (e : Illegal), s.inFlight = some cw → decode s.nslot cw = .error e →
      (∀ rest, s.host ≠ .reset :: rest) → (∀ rest, s.host ≠ .wait :: rest) →
      step s = .next (s.answered 0x3000000000000000#64)) ∧
    (∀ (s : State) (cw : Word) (e : Illegal) (rest : List HostMove), s.inFlight = some cw →
      decode s.nslot cw = .error e → s.host = .wait :: rest →
      step s = .next (State.answered { s with host := rest } 0x3000000000000000#64)) ∧
    (∀ (s : State) (nbits w : Nat) (i : Instr), decode s.nslot (tableWord nbits w) = .ok i → s.host = [] →
      step (s.withFetchWord nbits w) = exec i (s.withFetchWord nbits w)) ∧
    ∀ (s : State) (nbits w : Nat) (e : Illegal), decode s.nslot (tableWord nbits w) = .error e →
      s.host = [] →
      step (s.withFetchWord nbits w) = .next ((s.withFetchWord nbits w).answered 0x3000000000000000#64)

/-- 60_exceptions.md R203, 30_encoding.md R66: a word that spells no command answers `respond(3, 0, 0)` and
changes no state: by itself, and in a step, whatever the host does but reset. The host's list, of which such
a step uses up a `wait` in front and nothing else, is the model's choice (log entry 3). -/
def Obligations.IllegalWordAnswersIllegalCommand : Prop :=
  (∀ (s : State) (cw : Word) (e : Illegal), decode s.nslot cw = .error e →
      executeWord cw s = .next { s with rbuf := some 0x3000000000000000#64, inFlight := none }) ∧
    (∀ (s : State) (cw : Word) (e : Illegal), s.inFlight = some cw → decode s.nslot cw = .error e →
      (∀ rest, s.host ≠ .reset :: rest) → (∀ rest, s.host ≠ .wait :: rest) →
      step s = .next { s with rbuf := some 0x3000000000000000#64, inFlight := none }) ∧
    ∀ (s : State) (cw : Word) (e : Illegal) (rest : List HostMove), s.inFlight = some cw →
      decode s.nslot cw = .error e → s.host = .wait :: rest →
      step s = .next { s with rbuf := some 0x3000000000000000#64, inFlight := none, host := rest }

/-- 70_reset_and_hazards.md R235: a response that is never taken stalls the unit, for any number of steps in
which the host neither takes it nor resets; taking it ends the stall. The host's moves stand in a list of the
model's (log entry 3). -/
def Obligations.UntakenResponseStallsTheUnit : Prop :=
  (∀ (n : Nat) (s : State) (r : Word), s.rbuf = some r → s.inFlight = none →
      (∀ m ∈ s.host, m ≠ .take ∧ m ≠ .reset) →
      ∃ t, stepN n s = .next t ∧ t.slots = s.slots ∧ t.rbuf = some r ∧ t.inFlight = none ∧
        t.accepted = s.accepted) ∧
    (∀ (s : State) (r : Word) (rest : List HostMove), s.rbuf = some r → s.inFlight = none →
      s.host = .take :: rest →
      ∃ t, step s = .next t ∧ t.slots = s.slots ∧ t.rbuf = none ∧ t.inFlight = none) ∧
    ∀ (s : State) (rest : List HostMove), s.host = .reset :: rest →
      ∃ t, step s = .next t ∧ t.rbuf = none ∧ t.inFlight = none

/-- 70_reset_and_hazards.md R231: after reset, as long as the host issues no new command, no response
appears, whatever was in flight or in `rbuf`, and every slot keeps the reset values. The host's moves stand in
a list of the model's, where one that wants a response that never comes waits (log entries 3 and 4). -/
def Obligations.ResetAbandonsCommandsForGood : Prop :=
  ∀ (n : Nat) (s : State) (rest : List HostMove), s.host = .reset :: rest →
    (∀ cw, HostMove.issue cw ∉ rest) →
    ∃ t, stepN (n + 1) s = .next t ∧ t.rbuf = none ∧ t.inFlight = none ∧
      ∀ v ∈ t.slots, v.len = 0 ∧ ∀ k, memRead v.st k = 0

/-- 20_memory.md R49, R54: a host that issues any list of words and takes every response gets one response
for each, in order; command `k` reads the slots that commands `0 .. k-1` left and nothing else, and leaves
the slots command `k + 1` reads. The host's list of moves and the record of the responses it took are the
model's choices (log entries 3 and 5). -/
def Obligations.ResponsesComeInCommandOrder : Prop :=
  ∀ (cws : List Word) (s : State), s.inFlight = none → s.rbuf = none → s.host = issueAll cws →
    ∃ (t : State) (rs : List Word) (bank : Nat → List Slot),
      stepN (3 * cws.length) s = .next t ∧ t.runEnded ∧ t.taken = s.taken ++ rs ∧
      rs.length = cws.length ∧ t.accepted = s.accepted + cws.length ∧
      bank 0 = s.slots ∧ bank cws.length = t.slots ∧
      ∀ k cw, cws[k]? = some cw → ∃ r u, rs[k]? = some r ∧
        executeWord cw { s with slots := bank k } = .next u ∧ u.slots = bank (k + 1) ∧ u.rbuf = some r

/-- 46_export.md R170, R171: ToArray, run by the host, returns bit `i` of the slot as element `i`, for every
index below the length; it is one LEN and one GET for each index, none of which fails, and changes no slot.
The host's list of moves, the record of the responses it took and how a host program runs are the model's
choices (log entries 3, 5 and 6). -/
def Obligations.ToArrayReturnsEveryBit : Prop :=
  ∀ (s : State) (sa : SlotNo) (v : Slot) (n : Nat), s.rbuf = none → s.inFlight = none →
    s.slotAt sa = some v → v.len.toNat < n →
    ∃ t rs, runHost (toArrayProgram sa s.taken.length) n s = .next t ∧ t.taken = s.taken ++ rs ∧
      toArrayElements rs = (List.range v.len.toNat).map (fun i => boolField (bitAt v.st i)) ∧
      rs.length = v.len.toNat + 1 ∧ (∀ r ∈ rs, respStatus r = 0) ∧ t.slots = s.slots ∧ t.runEnded

/-! ### Encoding -/

/-- 30_encoding.md R60, R61, R64, R66: decoding the word of a command gives the command back, for every
command, every operand and every number of slots. -/
def Obligations.DecodeOfEncodeIsTheCommand : Prop :=
  ∀ (n : Nat) (i : Instr), i.wellFormed n = true → decode n (encode i) = .ok i

/-- 30_encoding.md R64, R66 (decision D7, "keeps every legal word unique"): a word that decodes is the word
of the command it decodes to, and that command names only slots of the bank. -/
def Obligations.EncodeOfDecodeIsTheWord : Prop :=
  ∀ (n : Nat) (cw : Word) (i : Instr), decode n cw = .ok i → encode i = cw ∧ i.wellFormed n = true

/-- 30_encoding.md R64: a word spells the command of a row exactly when `cw & mask = match`, `sa < NSLOT`,
and, for EQ, LEQ and LT, `sb < NSLOT`. -/
def Obligations.DecodeAgreesWithMatchAndMask : Prop :=
  ∀ (n : Nat) (cw : Word) (op : Opcode),
    decode n cw = .ok (buildInstr op cw) ↔
      cw &&& op.maskWord = op.matchWord ∧ (cmdSa cw).toNat < n ∧
        (op.usesSb = true → (cmdSb cw).toNat < n)

/-- 30_encoding.md R67, R68, R69, R70: the words that are ILLEGAL, and no others. -/
def Obligations.IllegalWordsAreExactlyThree : Prop :=
  ∀ (n : Nat) (cw : Word),
    (∃ e, decode n cw = .error e) ↔
      (cmdOp cw = 0x0 ∨ 0xC ≤ (cmdOp cw).toNat) ∨
      (∃ op, opcodeOf (cmdOp cw) = some op ∧
        (cmdRsv cw ≠ 0 ∨ (op.usesSb = false ∧ cmdSb cw ≠ 0) ∨ (op.usesA = false ∧ cmdA cw ≠ 0) ∨
          (op.usesB = false ∧ cmdB cw ≠ 0))) ∨
      (∃ op, opcodeOf (cmdOp cw) = some op ∧
        (n ≤ (cmdSa cw).toNat ∨ (op.usesSb = true ∧ n ≤ (cmdSb cw).toNat)))

/-- Words written out from the examples of 40_construction.md to 45_comparison.md decode to the commands
they stand for. -/
def Obligations.WrittenWordsDecode : Prop :=
  decode 2 0x1000000041000000#64 = .ok (.new 0 65) ∧
    decode 2 0x3000000008000000#64 = .ok (.get 0 8) ∧
    decode 2 0x4000000003000005#64 = .ok (.put 0 3 5) ∧
    decode 2 0x500000000500001A#64 = .ok (.set 0 5 26) ∧
    decode 2 0x8000000000000000#64 = .ok (.count 0) ∧
    decode 2 0xA100000000000000#64 = .ok (.leq 1 0)

/-- 30_encoding.md R69 for a command as syntax: one that names a slot outside the bank answers
ILLEGAL_COMMAND and changes nothing. The decoder gives no such command (log entry 7). -/
def Obligations.CommandOutsideTheBankIsIllegal : Prop :=
  ∀ (i : Instr) (s : State), i.wellFormed s.nslot = false →
    exec i s = .next { s with rbuf := some 0x3000000000000000#64, inFlight := none }

/-- 30_encoding.md R62, R63: the response to any word, whether it decodes or not, and to any command, has the
reserved bits 0, a status of 0 to 3, P 0 unless the status is OUT_OF_RANGE, and R 0 on INVALID_RANGE and
ILLEGAL_COMMAND. The status is ILLEGAL_COMMAND exactly for the words that spell no command. On OUT_OF_RANGE, P
is the offending index, the first of the command's indices not below the length, and R is that length. What R
holds on OK is said by each command's own statement. (A term that no word decodes to: log entry 7.) -/
def Obligations.EveryResponseWordIsLegal : Prop :=
  (∀ (cw : Word) (s t : State), executeWord cw s = .next t →
      ∃ w, t.rbuf = some w ∧ LegalResponse w ∧
        (respStatus w = 3 ↔ ∃ e, decode s.nslot cw = .error e) ∧
        ∀ i, decode s.nslot cw = .ok i → exec i s = .next t) ∧
    ∀ (i : Instr) (s t : State), exec i s = .next t →
      ∃ w, t.rbuf = some w ∧ LegalResponse w ∧
        (respStatus w = 1 → ∃ sa v, slotsNamed i = [sa] ∧ s.slotAt sa = some v ∧ respR w = v.len ∧
          (indexOperands i).find? (fun k => decide (v.len.toNat ≤ k.toNat)) = some (respP w))

/-- 30_encoding.md R62, R63 over the whole machine: reset leaves no response, and if the response in `rbuf`,
if there is one, is legal, so is the one in `rbuf` after any step, whatever the word in flight and whatever
the host does. -/
def Obligations.EveryStepKeepsResponsesLegal : Prop :=
  (∀ n, (State.resetOf n).rbuf = none) ∧
    ∀ s t : State, (∀ w, s.rbuf = some w → LegalResponse w) → step s = .next t →
      ∀ w, t.rbuf = some w → LegalResponse w

/-- 20_memory.md R42: sent over a byte link least significant part first, a word arrives as it was. -/
def Obligations.SerialisedWordArrives : Prop :=
  ∀ w : Word, deserialise (serialise w) = w ∧
    ∀ j, j < 8 → (serialise w)[j]? = some (w.extractLsb' (8 * j) 8)

/-! ### Storage -/

/-- 20_memory.md R40, R41: bit `i` is bit `i mod 8` of byte `i div 8`, and bit `i mod 64` of word
`i div 64`; byte `j` of word `w` is byte `8w + j` of the slot, byte 0 the least significant. -/
def Obligations.BitsBytesAndWordsAgree : Prop :=
  (∀ (m : Memory) (i : Nat), bitAt m i = ((memRead m (i / 8) >>> (i % 8)) &&& 1 == 1)) ∧
    (∀ (m : Memory) (i : Nat), bitAt m i = (memWord m (i / 64)).getLsbD (i % 64)) ∧
    ∀ (m : Memory) (w j : Nat), j < 8 → (memWord m w).extractLsb' (8 * j) 8 = memRead m (8 * w + j)

/-- 20_memory.md R41: a word's population count is the sum of its bytes' counts, and two words are equal, or
one a bitwise subset of the other, exactly when the same holds byte by byte; so no response shows the byte
order: what COUNT, and on equal lengths EQ, LEQ and LT, answer is computed from the buffers' bytes alone, with
no word formed of them. (A count that R does not hold, only without INV: log entry 8.) -/
def Obligations.WordReadingsAreByteReadings : Prop :=
  (∀ (m : Memory) (w : Nat),
      popcount (memWord m w) = ((List.range 8).map fun j => popcount (memRead m (8 * w + j))).sum) ∧
    (∀ (m m' : Memory) (w : Nat),
      memWord m w = memWord m' w ↔ ∀ j, j < 8 → memRead m (8 * w + j) = memRead m' (8 * w + j)) ∧
    (∀ (m m' : Memory) (w : Nat),
      memWord m w &&& ~~~memWord m' w = 0 ↔
        ∀ j, j < 8 → memRead m (8 * w + j) &&& ~~~memRead m' (8 * w + j) = 0) ∧
    (∀ (s : State) (sa : SlotNo) (v : Slot), s.slotAt sa = some v →
      exec (.count sa) s = .next (s.answered (responseWord .ok 0 (BitVec.ofNat 24
        ((List.range (nbytes v.len.toNat)).map fun k => popcount (memRead v.st k)).sum)))) ∧
    ∀ (s : State) (sa sb : SlotNo) (a b : Slot) (equal subset : Bool), s.slotAt sa = some a →
      s.slotAt sb = some b → a.len = b.len →
      (equal = true ↔ ∀ k, k < nbytes a.len.toNat → memRead a.st k = memRead b.st k) →
      (subset = true ↔ ∀ k, k < nbytes a.len.toNat → memRead a.st k &&& ~~~memRead b.st k = 0) →
      exec (.eq sa sb) s = .next (s.answered (responseWord .ok 0 (boolField equal))) ∧
      exec (.leq sa sb) s = .next (s.answered (responseWord .ok 0 (boolField subset))) ∧
      exec (.lt sa sb) s = .next (s.answered (responseWord .ok 0 (boolField (subset && !equal))))

/-- 10_state.md R25, R32: a sound slot is its length and its bits below the length: two that agree on these
are the same data, so nothing else of a slot can show in a response. -/
def Obligations.SoundSlotIsItsLengthAndBits : Prop :=
  ∀ v v' : Slot, v.Sound → v'.Sound → v.len = v'.len →
    (∀ i, i < v.len.toNat → bitAt v.st i = bitAt v'.st i) → v = v'

/-- 00_scope.md R11, 43_ranged.md R132: the one pass over a run of bytes is the loop of single byte reads
and writes, from the lowest address up (log entry 9). -/
def Obligations.OnePassIsTheByteLoop : Prop :=
  ∀ (f : Byte → Byte) (k n : Nat) (m : Memory), m.wf = true → k + n ≤ Config.capB →
    mapBytes f k n m =
      (List.range n).foldl (fun m' j => memWrite m' (k + j) (f (memRead m' (k + j)))) m

/-- 43_ranged.md R130, R131: the entries of the two mask tables, and the three byte operations, bit by
bit: under a mask's 1 the operation's value, under its 0 the bit as it was. -/
def Obligations.MasksAndByteOperations : Prop :=
  (∀ k, k < 8 → ∀ j, j < 8 →
      (maskAbove k).getLsbD j = decide (k ≤ j) ∧ (maskBelow k).getLsbD j = decide (j ≤ k)) ∧
    ∀ (b m : Byte) (j : Nat), j < 8 →
      (RangeOp.set.applyByte b m).getLsbD j = (if m.getLsbD j then true else b.getLsbD j) ∧
      (RangeOp.clear.applyByte b m).getLsbD j = (if m.getLsbD j then false else b.getLsbD j) ∧
      (RangeOp.not.applyByte b m).getLsbD j = (if m.getLsbD j then !b.getLsbD j else b.getLsbD j)

/-! ### NEW and LEN -/

/-- 40_construction.md R100: NEW answers OK, sets the length, and leaves every byte of the slot 0, whatever
the slot held; nothing else changes. -/
def Obligations.NewMakesAnAllZeroArray : Prop :=
  ∀ (s : State) (sa : SlotNo) (length : Field24) (v : Slot), s.slotAt sa = some v →
    ∃ t v', exec (.new sa length) s = .next t ∧ t.endedWith 0 ∧ t.slotAt sa = some v' ∧
      v'.len = length ∧ (∀ k, memRead v'.st k = 0) ∧ v'.Sound ∧ s.SameOutside t sa

/-- 40_construction.md R101: LEN answers the slot's length and changes nothing. -/
def Obligations.LenAnswersTheLength : Prop :=
  ∀ (s : State) (sa : SlotNo) (v : Slot), s.slotAt sa = some v →
    ∃ w, exec (.len sa) s = .next (s.answered w) ∧ respStatus w = 0 ∧ respP w = 0 ∧ respR w = v.len

/-! ### GET and PUT -/

/-- 42_single_bit.md R120: on an index below the length, GET answers the bit and changes nothing. -/
def Obligations.GetAnswersTheBit : Prop :=
  ∀ (s : State) (sa : SlotNo) (i : Field24) (v : Slot), s.slotAt sa = some v → i.toNat < v.len.toNat →
    ∃ w, exec (.get sa i) s = .next (s.answered w) ∧ respStatus w = 0 ∧ respP w = 0 ∧
      respR w = if bitAt v.st i.toNat then 1 else 0

/-- 42_single_bit.md R121: on an index below the length, PUT answers the bit before the write, makes bit `i`
1 if the value is not 0 and 0 if it is, and changes no other bit, no other byte and no other slot. -/
def Obligations.PutWritesOneBitAndAnswersTheOld : Prop :=
  ∀ (s : State) (sa : SlotNo) (i value : Field24) (v : Slot), s.slotAt sa = some v → v.st.wf = true →
    i.toNat < v.len.toNat →
    ∃ t v' w, exec (.put sa i value) s = .next t ∧ t.endedWith w ∧ respStatus w = 0 ∧ respP w = 0 ∧
      respR w = (if bitAt v.st i.toNat then 1 else 0) ∧ t.slotAt sa = some v' ∧ v'.len = v.len ∧
      (∀ j, bitAt v'.st j = if j = i.toNat then decide (value ≠ 0) else bitAt v.st j) ∧
      (∀ a, a ≠ i.toNat / 8 → memRead v'.st a = memRead v.st a) ∧ s.SameOutside t sa

/-- 41_validation.md R110: an index at or beyond the length makes GET and PUT end in OUT_OF_RANGE with
P = the index and R = the length, and nothing changes; an index below the length makes neither fail. -/
def Obligations.IndexCheckOfGetAndPut : Prop :=
  ∀ (s : State) (sa : SlotNo) (i value : Field24) (v : Slot), s.slotAt sa = some v →
    (v.len.toNat ≤ i.toNat →
      ∃ w, respStatus w = 1 ∧ respP w = i ∧ respR w = v.len ∧
        exec (.get sa i) s = .next (s.answered w) ∧ exec (.put sa i value) s = .next (s.answered w)) ∧
    (i.toNat < v.len.toNat →
      ∃ t u w, exec (.get sa i) s = .next t ∧ exec (.put sa i value) s = .next u ∧
        t.rbuf = some w ∧ u.rbuf = some w ∧ respStatus w = 0)

/-- 42_single_bit.md R122: after a PUT, GET answers the value written (1 for any nonzero value), and the
PUT's answer was the bit just before it, which is what GET would have answered; outside the length both fail
with OUT_OF_RANGE. -/
def Obligations.SingleBitLaws : Prop :=
  (∀ (s : State) (sa : SlotNo) (i value : Field24) (v : Slot), s.slotAt sa = some v → v.st.wf = true →
      i.toNat < v.len.toNat →
      ∃ t u w, exec (.get sa i) s = .next (s.answered w) ∧ exec (.put sa i value) s = .next t ∧
        t.rbuf = some w ∧ exec (.get sa i) t = .next u ∧
        u.rbuf = some (if value = 0 then 0 else 1)) ∧
    ∀ (s : State) (sa : SlotNo) (i value : Field24) (v : Slot), s.slotAt sa = some v →
      v.len.toNat ≤ i.toNat →
      ∃ t u w, exec (.get sa i) s = .next t ∧ exec (.put sa i value) s = .next u ∧
        t.rbuf = some w ∧ u.rbuf = some w ∧ respStatus w = 1

/-! ### SET, CLEAR and NOT -/

/-- 43_ranged.md R133, R134: on a valid range SET answers OK, makes every bit from `low` to `high` 1, and
changes no other bit, no byte outside `low div 8 .. high div 8`, and no other slot. -/
def Obligations.SetForcesTheRangeToOne : Prop :=
  ∀ (s : State) (sa : SlotNo) (low high : Field24) (v : Slot), s.slotAt sa = some v → v.st.wf = true →
    low.toNat ≤ high.toNat → high.toNat < v.len.toNat →
    ∃ t v', exec (.set sa low high) s = .next t ∧ t.endedWith 0 ∧ t.slotAt sa = some v' ∧
      v'.len = v.len ∧
      (∀ j, bitAt v'.st j = if low.toNat ≤ j ∧ j ≤ high.toNat then true else bitAt v.st j) ∧
      (∀ a, a < low.toNat / 8 ∨ high.toNat / 8 < a → memRead v'.st a = memRead v.st a) ∧
      s.SameOutside t sa

/-- 43_ranged.md R133, R135: on a valid range CLEAR answers OK, makes every bit from `low` to `high` 0, and
changes nothing else. -/
def Obligations.ClearForcesTheRangeToZero : Prop :=
  ∀ (s : State) (sa : SlotNo) (low high : Field24) (v : Slot), s.slotAt sa = some v → v.st.wf = true →
    low.toNat ≤ high.toNat → high.toNat < v.len.toNat →
    ∃ t v', exec (.clear sa low high) s = .next t ∧ t.endedWith 0 ∧ t.slotAt sa = some v' ∧
      v'.len = v.len ∧
      (∀ j, bitAt v'.st j = if low.toNat ≤ j ∧ j ≤ high.toNat then false else bitAt v.st j) ∧
      (∀ a, a < low.toNat / 8 ∨ high.toNat / 8 < a → memRead v'.st a = memRead v.st a) ∧
      s.SameOutside t sa

/-- 43_ranged.md R133, R136: on a valid range NOT answers OK, flips every bit from `low` to `high`, and
changes nothing else. -/
def Obligations.NotFlipsTheRange : Prop :=
  ∀ (s : State) (sa : SlotNo) (low high : Field24) (v : Slot), s.slotAt sa = some v → v.st.wf = true →
    low.toNat ≤ high.toNat → high.toNat < v.len.toNat →
    ∃ t v', exec (.not sa low high) s = .next t ∧ t.endedWith 0 ∧ t.slotAt sa = some v' ∧
      v'.len = v.len ∧
      (∀ j, bitAt v'.st j = if low.toNat ≤ j ∧ j ≤ high.toNat then !bitAt v.st j else bitAt v.st j) ∧
      (∀ a, a < low.toNat / 8 ∨ high.toNat / 8 < a → memRead v'.st a = memRead v.st a) ∧
      s.SameOutside t sa

/-- 41_validation.md R111: the checks of SET, CLEAR and NOT in their order, the first that fails deciding
the response; nothing changes on any of them. A range that none of them refuses ends in OK. -/
def Obligations.RangeChecksInOrder : Prop :=
  ∀ (i : Instr) (s : State) (sa : SlotNo) (low high : Field24) (v : Slot),
    i = .set sa low high ∨ i = .clear sa low high ∨ i = .not sa low high → s.slotAt sa = some v →
    (high.toNat < low.toNat → exec i s = .next (s.answered 0x2000000000000000#64)) ∧
    (low.toNat ≤ high.toNat → v.len.toNat ≤ low.toNat →
      ∃ w, exec i s = .next (s.answered w) ∧ respStatus w = 1 ∧ respP w = low ∧ respR w = v.len) ∧
    (low.toNat ≤ high.toNat → low.toNat < v.len.toNat → v.len.toNat ≤ high.toNat →
      ∃ w, exec i s = .next (s.answered w) ∧ respStatus w = 1 ∧ respP w = high ∧ respR w = v.len) ∧
    (low.toNat ≤ high.toNat → high.toNat < v.len.toNat → ∃ t, exec i s = .next t ∧ t.endedWith 0)

/-- 20_memory.md R47: a command that changes no state answers the same twice; SET and CLEAR are idempotent,
NOT is an involution, a second PUT of the same value leaves the state and answers the bit the first wrote, a
second NEW of the same length leaves the state. -/
def Obligations.RepeatedCommands : Prop :=
  (∀ (i : Instr) (s t : State), slotWritten i = none → exec i s = .next t →
      t.slots = s.slots ∧ exec i t = .next t) ∧
    (∀ (s t : State) (i : Instr) (sa : SlotNo) (low high : Field24),
      i = .set sa low high ∨ i = .clear sa low high → (∀ v ∈ s.slots, v.st.wf = true) →
      exec i s = .next t → exec i t = .next t) ∧
    (∀ (s t u : State) (sa : SlotNo) (low high : Field24), (∀ v ∈ s.slots, v.st.wf = true) →
      exec (.not sa low high) s = .next t → exec (.not sa low high) t = .next u → u.slots = s.slots) ∧
    (∀ (s t u : State) (sa : SlotNo) (i value : Field24) (v : Slot), s.slotAt sa = some v →
      v.st.wf = true → i.toNat < v.len.toNat →
      exec (.put sa i value) s = .next t → exec (.put sa i value) t = .next u →
      u.slots = t.slots ∧ u.rbuf = some (if value = 0 then 0 else 1)) ∧
    ∀ (s t : State) (sa : SlotNo) (length : Field24),
      exec (.new sa length) s = .next t → exec (.new sa length) t = .next t

/-- 40_construction.md R100 (its corner case of length 0), 70_reset_and_hazards.md R233: on an empty array
every GET, PUT, SET, CLEAR and NOT ends in an error that changes nothing, LEN and COUNT answer 0, and against
another empty array EQ and LEQ answer 1 and LT answers 0. -/
def Obligations.EmptyArrayBehaviour : Prop :=
  ∀ (s : State) (sa sb : SlotNo) (v v' : Slot) (x y : Field24), s.slotAt sa = some v → v.len = 0 →
    s.slotAt sb = some v' → v'.len = 0 →
    (∀ i, i ∈ [Instr.get sa x, .put sa x y, .set sa x y, .clear sa x y, .not sa x y] →
      ∃ w, exec i s = .next (s.answered w) ∧ (respStatus w = 1 ∨ respStatus w = 2)) ∧
    exec (.len sa) s = .next (s.answered 0) ∧ exec (.count sa) s = .next (s.answered 0) ∧
    exec (.eq sa sb) s = .next (s.answered 1) ∧ exec (.leq sa sb) s = .next (s.answered 1) ∧
    exec (.lt sa sb) s = .next (s.answered 0)

/-! ### COUNT -/

/-- 44_popcount.md R151, R152: under INV, COUNT answers the number of 1 bits below the length, which is at
most the length, and changes nothing. -/
def Obligations.CountAnswersTheNumberOfOnes : Prop :=
  ∀ (s : State) (sa : SlotNo) (v : Slot), s.slotAt sa = some v → v.Padded →
    ∃ w, exec (.count sa) s = .next (s.answered w) ∧ respStatus w = 0 ∧ respP w = 0 ∧
      (respR w).toNat = (List.range v.len.toNat).countP (fun i => bitAt v.st i) ∧
      (respR w).toNat ≤ v.len.toNat

/-- 43_ranged.md R137, its third and fourth laws: from an all-zero array, COUNT after SET is
`high - low + 1` and after CLEAR of the same range 0; after NOT of the whole array of `n >= 1` bits, COUNT is
`n` less what it was. -/
def Obligations.CountLawsOfTheRangedCommands : Prop :=
  (∀ (s : State) (sa : SlotNo) (low high : Field24) (v : Slot), s.slotAt sa = some v → v.st = memZero →
      low.toNat ≤ high.toNat → high.toNat < v.len.toNat →
      ∃ t1 t2 t3 t4 w2 w4, exec (.set sa low high) s = .next t1 ∧ exec (.count sa) t1 = .next t2 ∧
        t2.rbuf = some w2 ∧ (respR w2).toNat = high.toNat - low.toNat + 1 ∧
        exec (.clear sa low high) t2 = .next t3 ∧ exec (.count sa) t3 = .next t4 ∧
        t4.rbuf = some w4 ∧ (respR w4).toNat = 0) ∧
    ∀ (s : State) (sa : SlotNo) (v : Slot), s.slotAt sa = some v → v.Sound → 1 ≤ v.len.toNat →
      ∃ t1 t2 t3 w1 w3, exec (.count sa) s = .next t1 ∧ t1.rbuf = some w1 ∧
        exec (.not sa 0 (v.len - 1)) t1 = .next t2 ∧ exec (.count sa) t2 = .next t3 ∧
        t3.rbuf = some w3 ∧ (respR w3).toNat = v.len.toNat - (respR w1).toNat

/-! ### EQ, LEQ and LT -/

/-- 45_comparison.md R164, EQ: under INV and with equal lengths, EQ answers 1 exactly when the two slots
have the same bits below the length, and changes nothing. -/
def Obligations.EqComparesTheBits : Prop :=
  ∀ (s : State) (sa sb : SlotNo) (a b : Slot), s.slotAt sa = some a → s.slotAt sb = some b →
    a.Padded → b.Padded → a.len = b.len →
    ∃ r : Field24, exec (.eq sa sb) s = .next (s.answered (responseWord .ok 0 r)) ∧ (r = 0 ∨ r = 1) ∧
      (r = 1 ↔ ∀ i < a.len.toNat, bitAt a.st i = bitAt b.st i)

/-- 45_comparison.md R164, LEQ: under INV and with equal lengths, LEQ answers 1 exactly when every 1 bit of
`sa` below the length is a 1 bit of `sb`, and changes nothing. -/
def Obligations.LeqAnswersSubset : Prop :=
  ∀ (s : State) (sa sb : SlotNo) (a b : Slot), s.slotAt sa = some a → s.slotAt sb = some b →
    a.Padded → b.Padded → a.len = b.len →
    ∃ r : Field24, exec (.leq sa sb) s = .next (s.answered (responseWord .ok 0 r)) ∧ (r = 0 ∨ r = 1) ∧
      (r = 1 ↔ ∀ i < a.len.toNat, bitAt a.st i = true → bitAt b.st i = true)

/-- 45_comparison.md R164, LT: under INV and with equal lengths, LT answers 1 exactly when `sa` is a subset
of `sb` and some bit below the length differs, and changes nothing. -/
def Obligations.LtAnswersProperSubset : Prop :=
  ∀ (s : State) (sa sb : SlotNo) (a b : Slot), s.slotAt sa = some a → s.slotAt sb = some b →
    a.Padded → b.Padded → a.len = b.len →
    ∃ r : Field24, exec (.lt sa sb) s = .next (s.answered (responseWord .ok 0 r)) ∧ (r = 0 ∨ r = 1) ∧
      (r = 1 ↔ (∀ i < a.len.toNat, bitAt a.st i = true → bitAt b.st i = true) ∧
        ∃ i < a.len.toNat, bitAt a.st i ≠ bitAt b.st i)

/-- 45_comparison.md R160: a length mismatch is not an error; every comparison answers 0, regardless of
content, and changes nothing. -/
def Obligations.LengthMismatchAnswersFalse : Prop :=
  ∀ (i : Instr) (s : State) (sa sb : SlotNo) (a b : Slot),
    i = .eq sa sb ∨ i = .leq sa sb ∨ i = .lt sa sb → s.slotAt sa = some a → s.slotAt sb = some b →
    a.len ≠ b.len → exec i s = .next (s.answered 0x0000000000000000#64)

/-- 45_comparison.md R166: a comparison of a slot with itself: EQ and LEQ answer 1, LT answers 0, and
nothing changes, whatever the slot holds; and no comparison writes a slot. -/
def Obligations.SelfComparison : Prop :=
  (∀ (s : State) (sa : SlotNo) (v : Slot), s.slotAt sa = some v →
      exec (.eq sa sa) s = .next (s.answered 0x0000000000000001#64) ∧
      exec (.leq sa sa) s = .next (s.answered 0x0000000000000001#64) ∧
      exec (.lt sa sa) s = .next (s.answered 0x0000000000000000#64)) ∧
    ∀ (i : Instr) (s t : State), i.opcode ∈ [Opcode.eq, .leq, .lt] → exec i s = .next t →
      t.slots = s.slots

/-- 45_comparison.md R165, its second law: if `sb` holds `sa` with one more bit set, a PUT of a bit that was
0, LEQ and LT of the first and the second answer 1 and LEQ of the second and the first answers 0. -/
def Obligations.OneMoreBitIsAProperSuperset : Prop :=
  ∀ (s t : State) (sa sb : SlotNo) (k : Field24) (v : Slot), sa ≠ sb → s.slotAt sa = some v →
    s.slotAt sb = some v → v.Sound → k.toNat < v.len.toNat → bitAt v.st k.toNat = false →
    exec (.put sb k 1) s = .next t →
    exec (.leq sa sb) t = .next (t.answered 0x0000000000000001#64) ∧
    exec (.lt sa sb) t = .next (t.answered 0x0000000000000001#64) ∧
    exec (.leq sb sa) t = .next (t.answered 0x0000000000000000#64)

/-! ### Over all commands -/

/-- 41_validation.md R112: a response with an error status leaves every slot and every length, and all the
rest of the state, exactly as they were. -/
def Obligations.ErrorResponsesChangeNothing : Prop :=
  ∀ (i : Instr) (s t : State) (w : Word), exec i s = .next t → t.rbuf = some w → respStatus w ≠ 0 →
    t = s.answered w

/-- 41_validation.md R114: NEW, LEN, COUNT, EQ, LEQ and LT that name only slots of the bank end only in OK.
That a term naming a slot the bank does not have ends in ILLEGAL_COMMAND is the model's choice, DEDUCED from
30_encoding.md R69: the decoder gives no such term (log entry 7). -/
def Obligations.SixCommandsNeverFailValidation : Prop :=
  ∀ (i : Instr) (s t : State) (w : Word),
    i.opcode ∈ [Opcode.new, .len, .count, .eq, .leq, .lt] → exec i s = .next t → t.rbuf = some w →
    (i.wellFormed s.nslot = true → respStatus w = 0) ∧ (i.wellFormed s.nslot = false → respStatus w = 3)

/-- 20_memory.md R44: LEN, GET, COUNT, EQ, LEQ and LT write nothing; NEW, PUT, SET, CLEAR and NOT write at
most their one slot; and only NEW writes a length (10_state.md R21). -/
def Obligations.WhatEachCommandWrites : Prop :=
  ∀ (i : Instr) (s t : State), exec i s = .next t →
    (slotWritten i = none → t.slots = s.slots) ∧
    (∀ n, slotWritten i ≠ some n → t.slotAt n = s.slotAt n) ∧
    (i.opcode ≠ .new → ∀ n, (t.slotAt n).map Slot.len = (s.slotAt n).map Slot.len) ∧
    t.nslot = s.nslot ∧ t.accepted = s.accepted ∧ t.taken = s.taken ∧ t.host = s.host

/-- 10_state.md R33: slots are independent. In two states that agree on the slots a command names, it
answers the same and leaves those slots the same; and it writes no slot it does not name. -/
def Obligations.SlotsAreIndependent : Prop :=
  ∀ (i : Instr) (s s' t t' : State), (∀ n ∈ slotsNamed i, s.slotAt n = s'.slotAt n) →
    exec i s = .next t → exec i s' = .next t' →
    t.rbuf = t'.rbuf ∧ (∀ n ∈ slotsNamed i, t.slotAt n = t'.slotAt n) ∧
      ∀ n, n ∉ slotsNamed i → t.slotAt n = s.slotAt n

/-! ### The assembler -/

/-- 30_encoding.md R72, R73: a few lines of assembly text and the command words they stand for, a mnemonic in
small letters, a hexadecimal number, a comment and three pseudo-instructions among them; `SETALL` of 0 and a
slot number of 16 are refused. How blanks are read is the model's choice (log entry 10). -/
def Obligations.AssemblerSpellsCommands : Prop :=
  (assembleLine ['N', 'E', 'W', ' ', 's', '0', ',', ' ', '6', '5']).map (List.map encode) =
      some [0x1000000041000000#64] ∧
    (assembleLine ['p', 'u', 't', ' ', 's', '0', ',', '0', 'x', '8', ',', '1', ';', 'x']).map (List.map encode) =
      some [0x4000000008000001#64] ∧
    (assembleLine ['G', 'T', ' ', 's', '0', ',', 's', '1']).map (List.map encode) =
      some [0xB100000000000000#64] ∧
    (assembleLine ['S', 'E', 'T', 'A', 'L', 'L', ' ', 's', '1', ',', '7', '0']).map (List.map encode) =
      some [0x5100000000000045#64] ∧
    assembleLine ['S', 'E', 'T', 'A', 'L', 'L', ' ', 's', '1', ',', '0'] = none ∧
    assembleLine ['L', 'E', 'N', ' ', 's', '1', '6'] = none ∧
    (Pseudo.toarray 1 3).expand = some [.get 1 0, .get 1 1, .get 1 2] ∧
    assembleLine [';', 'x'] = some []
end

