-- ==== Sys2Proof/Laws/Memory.lean ====
section
/-! SUPPORT. Storage: what a byte read gives after each operation, and that every operation keeps the one
canonical form. -/

namespace Sys2Proof.Machine

@[simp] theorem memRead_nil (k : Nat) : memRead [] k = 0 := rfl

@[simp] theorem memRead_zero (k : Nat) : memRead memZero k = 0 := rfl

theorem memRead_cons (a : Nat) (b : Byte) (m : Memory) (k : Nat) :
    memRead ((a, b) :: m) k = if a = k then b else memRead m k := rfl

theorem memZero_wf : Memory.wf memZero = true := rfl

theorem cellsWf_cons {lo a : Nat} {b : Byte} {m : Memory} :
    cellsWf lo ((a, b) :: m) = true ↔ lo ≤ a ∧ a < Config.capB ∧ b ≠ 0 ∧ cellsWf (a + 1) m = true := by
  simp [cellsWf, and_assoc]

/-- A lower bound may be lowered. -/
theorem cellsWf_mono {lo lo' : Nat} {m : Memory} (h : cellsWf lo m = true) (hle : lo' ≤ lo) :
    cellsWf lo' m = true := by
  cases m with
  | nil => rfl
  | cons c m =>
    obtain ⟨a, b⟩ := c
    rw [cellsWf_cons] at h ⊢
    exact ⟨hle.trans h.1, h.2⟩

/-- Nothing is listed below the bound. -/
theorem memRead_below {lo k : Nat} {m : Memory} (h : cellsWf lo m = true) (hk : k < lo) : memRead m k = 0 := by
  induction m generalizing lo with
  | nil => rfl
  | cons c m ih =>
    obtain ⟨a, b⟩ := c
    rw [cellsWf_cons] at h
    rw [memRead_cons, if_neg (by omega)]
    exact ih h.2.2.2 (by omega)

/-- Nothing is listed at or above `CAPB`. -/
theorem memRead_beyond {lo k : Nat} {m : Memory} (h : cellsWf lo m = true) (hk : Config.capB ≤ k) :
    memRead m k = 0 := by
  induction m generalizing lo with
  | nil => rfl
  | cons c m ih =>
    obtain ⟨a, b⟩ := c
    rw [cellsWf_cons] at h
    rw [memRead_cons, if_neg (by omega)]
    exact ih h.2.2.2

theorem memRead_consByte {k : Nat} {b : Byte} {m : Memory} (h : cellsWf (k + 1) m = true) (a : Nat) :
    memRead (consByte k b m) a = if a = k then b else memRead m a := by
  unfold consByte
  by_cases hb : b = 0
  · by_cases ha : a = k
    · subst ha; simp [hb, memRead_below h (Nat.lt_succ_self a)]
    · simp [hb, ha]
  · rw [if_neg hb, memRead_cons]
    simp [eq_comm]

theorem cellsWf_consByte {lo k : Nat} {b : Byte} {m : Memory} (h : cellsWf (k + 1) m = true) (hlo : lo ≤ k)
    (hk : k < Config.capB) : cellsWf lo (consByte k b m) = true := by
  unfold consByte
  split
  · exact cellsWf_mono h (by omega)
  · next hb => exact cellsWf_cons.2 ⟨hlo, hk, hb, h⟩

theorem mapBytesFrom_spec (f : Byte → Byte) (n : Nat) {k : Nat} {m : Memory} (h : cellsWf k m = true)
    (hn : k + n ≤ Config.capB) :
    cellsWf k (mapBytesFrom f n k m) = true ∧
      ∀ a, memRead (mapBytesFrom f n k m) a = if k ≤ a ∧ a < k + n then f (memRead m a) else memRead m a := by
  induction n generalizing k m with
  | zero => exact ⟨h, fun a => by rw [if_neg (by omega)]; rfl⟩
  | succ n ih =>
    have key : ∀ (b : Byte) (rest : Memory), cellsWf (k + 1) rest = true → b = memRead m k →
        (∀ a, a ≠ k → memRead rest a = memRead m a) →
        cellsWf k (consByte k (f b) (mapBytesFrom f n (k + 1) rest)) = true ∧
        ∀ a, memRead (consByte k (f b) (mapBytesFrom f n (k + 1) rest)) a =
          if k ≤ a ∧ a < k + (n + 1) then f (memRead m a) else memRead m a := by
      intro b rest hrest hb hr
      obtain ⟨hw, hread⟩ := ih hrest (by omega)
      refine ⟨cellsWf_consByte hw le_rfl (by omega), fun a => ?_⟩
      rw [memRead_consByte hw a, hread a]
      by_cases ha : a = k
      · subst ha; rw [if_pos rfl, if_pos (by omega), hb]
      · rw [if_neg ha, hr a ha]
        by_cases hin : k + 1 ≤ a ∧ a < k + 1 + n
        · rw [if_pos hin, if_pos (by omega)]
        · rw [if_neg hin, if_neg (by omega)]
    cases m with
    | nil => exact key 0 [] rfl rfl fun _ _ => rfl
    | cons c m =>
      obtain ⟨a, b⟩ := c
      have hc := cellsWf_cons.1 h
      unfold mapBytesFrom
      split
      · next e =>
        subst e
        exact key b m hc.2.2.2 (by simp [memRead_cons]) fun x hx => by
          rw [memRead_cons, if_neg (Ne.symm hx)]
      · next e =>
        refine key 0 ((a, b) :: m) (cellsWf_cons.2 ⟨by omega, hc.2⟩) ?_ fun _ _ => rfl
        rw [memRead_cons, if_neg e]
        exact (memRead_below hc.2.2.2 (by omega)).symm

theorem mapBytes_spec (f : Byte → Byte) {k n lo : Nat} {m : Memory} (h : cellsWf lo m = true)
    (hn : k + n ≤ Config.capB) (hlo : lo ≤ k) :
    cellsWf lo (mapBytes f k n m) = true ∧
      ∀ a, memRead (mapBytes f k n m) a = if k ≤ a ∧ a < k + n then f (memRead m a) else memRead m a := by
  induction m generalizing lo with
  | nil =>
    obtain ⟨hw, hr⟩ := mapBytesFrom_spec f n (k := k) (m := []) rfl hn
    exact ⟨cellsWf_mono hw hlo, hr⟩
  | cons c m ih =>
    obtain ⟨a, b⟩ := c
    have hc := cellsWf_cons.1 h
    unfold mapBytes
    split
    · next hak =>
      obtain ⟨hw, hr⟩ := ih hc.2.2.2 (by omega)
      refine ⟨cellsWf_cons.2 ⟨hc.1, hc.2.1, hc.2.2.1, hw⟩, fun x => ?_⟩
      rw [memRead_cons, memRead_cons, hr x]
      by_cases hx : a = x
      · rw [if_pos hx, if_pos hx, if_neg (by omega)]
      · rw [if_neg hx, if_neg hx]
    · next hak =>
      obtain ⟨hw, hr⟩ := mapBytesFrom_spec f n (k := k) (cellsWf_cons.2 ⟨by omega, hc.2⟩) hn
      exact ⟨cellsWf_mono hw hlo, hr⟩

/-- A run of bytes rewritten: each byte of the run by `f`, every other byte as before. -/
theorem memRead_mapBytes (f : Byte → Byte) {k n : Nat} {m : Memory} (h : m.wf = true)
    (hn : k + n ≤ Config.capB) (a : Nat) :
    memRead (mapBytes f k n m) a = if k ≤ a ∧ a < k + n then f (memRead m a) else memRead m a :=
  (mapBytes_spec f h hn (Nat.zero_le k)).2 a

/-- `mapBytes` keeps the canonical form. -/
theorem mapBytes_wf (f : Byte → Byte) {k n : Nat} {m : Memory} (h : m.wf = true)
    (hn : k + n ≤ Config.capB) : (mapBytes f k n m).wf = true :=
  (mapBytes_spec f h hn (Nat.zero_le k)).1

/-- A byte write: that byte, and no other. -/
theorem memRead_memWrite {m : Memory} (h : m.wf = true) {k : Nat} (hk : k < Config.capB) (b : Byte) (a : Nat) :
    memRead (memWrite m k b) a = if a = k then b else memRead m a := by
  rw [memWrite, memRead_mapBytes _ h (by omega)]
  by_cases e : a = k
  · rw [if_pos e, if_pos (by omega)]
  · rw [if_neg e, if_neg (by omega)]

/-- `memWrite` keeps the canonical form. -/
theorem memWrite_wf {m : Memory} (h : m.wf = true) {k : Nat} (hk : k < Config.capB) (b : Byte) :
    (memWrite m k b).wf = true :=
  mapBytes_wf _ h (by omega)

/-- In canonical form, equal bytes are equal data. -/
theorem cells_ext {lo lo' : Nat} {m m' : Memory} (h : cellsWf lo m = true) (h' : cellsWf lo' m' = true)
    (e : ∀ a, memRead m a = memRead m' a) : m = m' := by
  induction m generalizing lo lo' m' with
  | nil =>
    cases m' with
    | nil => rfl
    | cons c m' =>
      obtain ⟨a, b⟩ := c
      have := e a
      rw [memRead_cons, if_pos rfl, memRead_nil] at this
      exact absurd this.symm (cellsWf_cons.1 h').2.2.1
  | cons c m ih =>
    obtain ⟨a, b⟩ := c
    have hc := cellsWf_cons.1 h
    cases m' with
    | nil =>
      have := e a
      rw [memRead_cons, if_pos rfl, memRead_nil] at this
      exact absurd this hc.2.2.1
    | cons c' m' =>
      obtain ⟨a', b'⟩ := c'
      have hc' := cellsWf_cons.1 h'
      have haa : a = a' := by
        rcases Nat.lt_trichotomy a a' with hlt | heq | hgt
        · have := e a
          rw [memRead_cons, if_pos rfl, memRead_cons, if_neg (by omega),
            memRead_below hc'.2.2.2 (by omega)] at this
          exact absurd this hc.2.2.1
        · exact heq
        · have := e a'
          rw [memRead_cons, if_neg (by omega), memRead_cons, if_pos rfl,
            memRead_below hc.2.2.2 (by omega)] at this
          exact absurd this.symm hc'.2.2.1
      subst haa
      have hb : b = b' := by simpa [memRead_cons] using e a
      subst hb
      have hm : m = m' := ih hc.2.2.2 hc'.2.2.2 fun x => by
        by_cases hx : a = x
        · subst hx; rw [memRead_below hc.2.2.2 (by omega), memRead_below hc'.2.2.2 (by omega)]
        · simpa [memRead_cons, hx] using e x
      rw [hm]

/-- Two canonical storages that read the same everywhere are the same. -/
theorem memory_ext {m m' : Memory} (h : m.wf = true) (h' : m'.wf = true)
    (e : ∀ a, memRead m a = memRead m' a) : m = m' :=
  cells_ext h h' e

end Sys2Proof.Machine
end

