-- ==== Sys2Proof/Laws/Bits.lean ====
section
/-! SUPPORT. Bits: the mask tables, what RangeApply and PUT make of each bit, and the bits of a word. -/

namespace Sys2Proof.Machine

theorem bitAt_def (m : Memory) (i : Nat) : bitAt m i = (memRead m (i / 8)).getLsbD (i % 8) := rfl

@[simp] theorem bitAt_nil (i : Nat) : bitAt [] i = false := by simp [bitAt]

@[simp] theorem bitAt_zero (i : Nat) : bitAt memZero i = false := by simp [bitAt]

/-- A bit and a byte: bit `j` of byte `k` is bit `8k + j` of the slot (20_memory.md R40). -/
theorem bitAt_byte (m : Memory) (k : Nat) {j : Nat} (hj : j < 8) : bitAt m (8 * k + j) = (memRead m k).getLsbD j := by
  rw [bitAt_def, show (8 * k + j) / 8 = k by omega, show (8 * k + j) % 8 = j by omega]

/-- Canonical storages with the same bits are the same. -/
theorem memory_ext_bits {m m' : Memory} (h : m.wf = true) (h' : m'.wf = true)
    (e : ∀ i, i < Config.capBits → bitAt m i = bitAt m' i) : m = m' := by
  refine memory_ext h h' fun a => ?_
  by_cases ha : a < Config.capB
  · refine BitVec.eq_of_getLsbD_eq fun j hj => ?_
    have := e (8 * a + j) (by simp only [Config.capBits, Config.capB] at *; omega)
    rwa [bitAt_byte m a hj, bitAt_byte m' a hj] at this
  · rw [memRead_beyond h (by omega), memRead_beyond h' (by omega)]

theorem bitAt_beyond {m : Memory} (h : m.wf = true) {i : Nat} (hi : Config.capBits ≤ i) : bitAt m i = false := by
  rw [bitAt_def, memRead_beyond h (by simp only [Config.capBits, Config.capB] at *; omega)]
  simp

/-! ### Masks (43_ranged.md R130, R131) -/

theorem getLsbD_maskAbove (k : Nat) {j : Nat} (hj : j < 8) :
    (maskAbove k).getLsbD j = decide (k ≤ j) := by
  have h255 : ∀ i < 8, (0xFF#8).getLsbD i = true := by decide
  rw [maskAbove, BitVec.getLsbD_shiftLeft, Bool.eq_iff_iff]
  simp only [Bool.and_eq_true, decide_eq_true_eq, Bool.not_eq_true', decide_eq_false_iff_not]
  constructor
  · rintro ⟨⟨-, h⟩, -⟩; omega
  · intro h; exact ⟨⟨hj, by omega⟩, h255 _ (by omega)⟩

theorem getLsbD_maskBelow {k : Nat} (hk : k < 8) (j : Nat) :
    (maskBelow k).getLsbD j = decide (j ≤ k) := by
  have h255 : ∀ i < 8, (0xFF#8).getLsbD i = true := by decide
  rw [maskBelow, BitVec.getLsbD_ushiftRight, Bool.eq_iff_iff, decide_eq_true_eq]
  constructor
  · intro h
    by_contra hc
    rw [BitVec.getLsbD_of_ge _ _ (by omega)] at h
    exact Bool.noConfusion h
  · intro h; exact h255 _ (by omega)

theorem getLsbD_maskFull {j : Nat} (hj : j < 8) : (0xFF : Byte).getLsbD j = true := by
  revert j; decide

/-- Under a mask, exactly the mask's bits take the operation's value (43_ranged.md R131). -/
theorem getLsbD_applyByte (op : RangeOp) (b m : Byte) {j : Nat} (hj : j < 8) :
    (op.applyByte b m).getLsbD j = if m.getLsbD j then op.applyBit (b.getLsbD j) else b.getLsbD j := by
  cases op <;> simp only [RangeOp.applyByte, RangeOp.applyBit, BitVec.getLsbD_or, BitVec.getLsbD_and,
    BitVec.getLsbD_not, BitVec.getLsbD_xor, hj, decide_true, Bool.true_and] <;>
  cases b.getLsbD j <;> cases m.getLsbD j <;> rfl

/-! ### RangeApply, bit by bit (43_ranged.md R133) -/

/-- The byte of a slot after RangeApply: byte `k` of the range under its mask. -/
theorem rangeMem_spec (op : RangeOp) {m : Memory} (h : m.wf = true) {low high : Nat} (hle : low ≤ high)
    (hcap : high < Config.capBits) :
    (rangeMem op m low high).wf = true ∧
      ∀ j, bitAt (rangeMem op m low high) j =
        if low ≤ j ∧ j ≤ high then op.applyBit (bitAt m j) else bitAt m j := by
  have hcap' : high / 8 < Config.capB := by simp only [Config.capBits, Config.capB] at *; omega
  unfold rangeMem
  dsimp only
  split
  · next e =>
    refine ⟨memWrite_wf h (by omega) _, fun j => ?_⟩
    rw [bitAt_def, memRead_memWrite h (by omega), bitAt_def]
    split
    · next ej =>
      have h8 : j % 8 < 8 := Nat.mod_lt _ (by omega)
      rw [getLsbD_applyByte _ _ _ h8, BitVec.getLsbD_and, getLsbD_maskAbove _ h8,
        getLsbD_maskBelow (Nat.mod_lt _ (by omega)), ← ej]
      by_cases hr : low ≤ j ∧ j ≤ high
      · rw [if_pos hr, if_pos]
        simp only [Bool.and_eq_true, decide_eq_true_eq]; omega
      · rw [if_neg hr, if_neg]
        simp only [Bool.and_eq_true, decide_eq_true_eq]; omega
    · next ej => rw [if_neg (by omega)]
  · next e =>
    have hlb : low / 8 < high / 8 := by omega
    have h1 := memWrite_wf h (k := low / 8) (by omega) (op.applyByte (memRead m (low / 8)) (maskAbove (low % 8)))
    have hn : low / 8 + 1 + (high / 8 - (low / 8 + 1)) ≤ Config.capB := by omega
    have h2 := mapBytes_wf (fun b => op.applyByte b 0xFF) h1 hn
    refine ⟨memWrite_wf h2 hcap' _, fun j => ?_⟩
    have h8 : j % 8 < 8 := Nat.mod_lt _ (by omega)
    rw [bitAt_def, memRead_memWrite h2 hcap', memRead_mapBytes _ h1 hn, memRead_mapBytes _ h1 hn,
      memRead_memWrite h (by omega), memRead_memWrite h (by omega), bitAt_def]
    by_cases hj1 : j / 8 = high / 8
    · rw [if_pos hj1, if_neg (by omega), if_neg (by omega), getLsbD_applyByte _ _ _ h8,
        getLsbD_maskBelow (Nat.mod_lt _ (by omega)), ← hj1]
      by_cases hr : low ≤ j ∧ j ≤ high
      · rw [if_pos hr, if_pos (by simp only [decide_eq_true_eq]; omega)]
      · rw [if_neg hr, if_neg (by simp only [decide_eq_true_eq]; omega)]
    · rw [if_neg hj1]
      by_cases hj2 : low / 8 + 1 ≤ j / 8 ∧ j / 8 < low / 8 + 1 + (high / 8 - (low / 8 + 1))
      · rw [if_pos hj2, if_neg (by omega), getLsbD_applyByte _ _ _ h8, getLsbD_maskFull h8, if_pos rfl,
          if_pos (by omega)]
      · rw [if_neg hj2]
        by_cases hj3 : j / 8 = low / 8
        · rw [if_pos hj3, getLsbD_applyByte _ _ _ h8, getLsbD_maskAbove _ h8, ← hj3]
          by_cases hr : low ≤ j ∧ j ≤ high
          · rw [if_pos hr, if_pos (by simp only [decide_eq_true_eq]; omega)]
          · rw [if_neg hr, if_neg (by simp only [decide_eq_true_eq]; omega)]
        · rw [if_neg hj3, if_neg (by omega)]

/-- Bytes outside the range's bytes are as before. -/
theorem memRead_rangeMem_other (op : RangeOp) {m : Memory} (h : m.wf = true) {low high : Nat} (hle : low ≤ high)
    (hcap : high < Config.capBits) {a : Nat} (ha : a < low / 8 ∨ high / 8 < a) :
    memRead (rangeMem op m low high) a = memRead m a := by
  refine BitVec.eq_of_getLsbD_eq fun j hj => ?_
  rw [← bitAt_byte _ _ hj, ← bitAt_byte _ _ hj, (rangeMem_spec op h hle hcap).2, if_neg (by omega)]

/-! ### PUT, bit by bit (42_single_bit.md R121) -/

theorem getLsbD_bitMask (k : Nat) {j : Nat} (hj : j < 8) : (0x01#8 <<< k).getLsbD j = decide (j = k) := by
  have h1 : ∀ i < 8, (0x01#8).getLsbD i = decide (i = 0) := by decide
  rw [BitVec.getLsbD_shiftLeft, h1 _ (by omega), Bool.eq_iff_iff]
  simp only [Bool.and_eq_true, decide_eq_true_eq, Bool.not_eq_true', decide_eq_false_iff_not]
  omega

/-- The byte PUT writes: the addressed bit takes the value, the other seven are written back. -/
theorem getLsbD_putByte (old : Byte) (k : Nat) (v : Field24) {j : Nat} (hj : j < 8) :
    (if v ≠ 0 then old ||| (0x01#8 <<< k) else old &&& ~~~(0x01#8 <<< k)).getLsbD j =
      if j = k then decide (v ≠ 0) else old.getLsbD j := by
  by_cases hv : v = 0
  · rw [if_neg (not_not.2 hv), BitVec.getLsbD_and, BitVec.getLsbD_not, getLsbD_bitMask _ hj]
    by_cases e : j = k <;> simp [e, hv, hj]
  · rw [if_pos hv, BitVec.getLsbD_or, getLsbD_bitMask _ hj]
    by_cases e : j = k
    · rw [if_pos e, decide_eq_true e, Bool.or_true, decide_eq_true hv]
    · simp [e]

theorem putBit_spec {m : Memory} (h : m.wf = true) {i : Nat} (hcap : i < Config.capBits) (v : Field24) :
    (putBit m i v).wf = true ∧ ∀ j, bitAt (putBit m i v) j = if j = i then decide (v ≠ 0) else bitAt m j := by
  have hcap' : i / 8 < Config.capB := by simp only [Config.capBits, Config.capB] at *; omega
  refine ⟨memWrite_wf h hcap' _, fun j => ?_⟩
  have h8 : j % 8 < 8 := Nat.mod_lt _ (by omega)
  unfold putBit
  dsimp only
  rw [bitAt_def, memRead_memWrite h hcap']
  by_cases hj : j / 8 = i / 8
  · rw [if_pos hj, getLsbD_putByte _ _ _ h8, ← hj]
    by_cases e : j = i
    · rw [if_pos e, if_pos (by rw [e])]
    · rw [if_neg e, if_neg (by omega), bitAt_def]
  · rw [if_neg hj, if_neg (by intro e; exact hj (by rw [e])), bitAt_def]

/-- Bytes other than the addressed one are as before. -/
theorem memRead_putBit_other {m : Memory} (h : m.wf = true) {i : Nat} (hcap : i < Config.capBits) (v : Field24)
    {a : Nat} (ha : a ≠ i / 8) : memRead (putBit m i v) a = memRead m a := by
  have hcap' : i / 8 < Config.capB := by simp only [Config.capBits, Config.capB] at *; omega
  unfold putBit
  dsimp only
  rw [memRead_memWrite h hcap', if_neg ha]

/-! ### Words (20_memory.md R41) -/

/-- Bit `j` of word `w` is bit `64 w + j` of the slot. -/
theorem getLsbD_memWord (m : Memory) (w : Nat) {j : Nat} (hj : j < 64) :
    (memWord m w).getLsbD j = bitAt m (64 * w + j) := by
  rw [bitAt_def, show (64 * w + j) / 8 = 8 * w + j / 8 by omega, show (64 * w + j) % 8 = j % 8 by omega]
  unfold memWord
  simp only [BitVec.getLsbD_append]
  split_ifs <;> (congr 2 <;> omega)

/-- Two words are the same exactly when their 64 bits are. -/
theorem memWord_eq_iff (m m' : Memory) (w : Nat) :
    memWord m w = memWord m' w ↔ ∀ j < 64, bitAt m (64 * w + j) = bitAt m' (64 * w + j) := by
  constructor
  · intro e j hj
    rw [← getLsbD_memWord m w hj, ← getLsbD_memWord m' w hj, e]
  · intro e
    refine BitVec.eq_of_getLsbD_eq fun j hj => ?_
    rw [getLsbD_memWord m w hj, getLsbD_memWord m' w hj, e j hj]

/-- `self AND (NOT other)` is 0 exactly when every 1 bit of self is one of other. -/
theorem memWord_subset_iff (m m' : Memory) (w : Nat) :
    memWord m w &&& ~~~memWord m' w = 0 ↔
      ∀ j < 64, bitAt m (64 * w + j) = true → bitAt m' (64 * w + j) = true := by
  constructor
  · intro e j hj h1
    have := congrArg (fun v => v.getLsbD j) e
    simp only [BitVec.getLsbD_and, BitVec.getLsbD_not, hj, decide_true, Bool.true_and,
      getLsbD_memWord _ w hj, h1, BitVec.ofNat_eq_ofNat, BitVec.getLsbD_zero] at this
    simpa using this
  · intro e
    refine BitVec.eq_of_getLsbD_eq fun j hj => ?_
    have := e j hj
    simp only [BitVec.getLsbD_and, BitVec.getLsbD_not, hj, decide_true, Bool.true_and,
      getLsbD_memWord _ w hj, BitVec.ofNat_eq_ofNat, BitVec.getLsbD_zero]
    cases h : bitAt m (64 * w + j) <;> simp_all

/-- A population count is at most the width (44_popcount.md R150). -/
theorem popcount_le {n : Nat} (v : BitVec n) : popcount v ≤ n := by
  have := List.countP_le_length (p := fun k => v.getLsbD k) (l := List.range n)
  rwa [List.length_range] at this

/-- The population count of a word of storage counts its 64 bits. -/
theorem popcount_memWord (m : Memory) (w : Nat) :
    popcount (memWord m w) = (List.range 64).countP fun j => bitAt m (64 * w + j) := by
  unfold popcount
  refine List.countP_congr fun j hj => ?_
  rw [getLsbD_memWord m w (List.mem_range.1 hj)]

end Sys2Proof.Machine
end

