-- ==== Sys2Proof/Laws/Encoding.lean ====
section
/-! SUPPORT. The fields of a packed command word, of a response word, and of a word on a byte link. -/

namespace Sys2Proof

/-! ### The fields of a packed command word (30_encoding.md R60) -/

variable (op : BitVec 4) (sa sb : SlotNo) (a b : Field24)

@[simp] theorem cmdOp_packCmd : cmdOp (packCmd op sa sb a b) = op := by
  refine BitVec.eq_of_getLsbD_eq fun i hi => ?_
  simp only [cmdOp, packCmd, BitVec.getLsbD_extractLsb', BitVec.getLsbD_append, hi, decide_true, Bool.true_and]
  split_ifs <;> first | omega | (congr 1; omega)

@[simp] theorem cmdSa_packCmd : cmdSa (packCmd op sa sb a b) = sa := by
  refine BitVec.eq_of_getLsbD_eq fun i hi => ?_
  simp only [cmdSa, packCmd, BitVec.getLsbD_extractLsb', BitVec.getLsbD_append, hi, decide_true, Bool.true_and]
  split_ifs <;> first | omega | (congr 1; omega)

@[simp] theorem cmdSb_packCmd : cmdSb (packCmd op sa sb a b) = sb := by
  refine BitVec.eq_of_getLsbD_eq fun i hi => ?_
  simp only [cmdSb, packCmd, BitVec.getLsbD_extractLsb', BitVec.getLsbD_append, hi, decide_true, Bool.true_and]
  split_ifs <;> first | omega | (congr 1; omega)

@[simp] theorem cmdRsv_packCmd : cmdRsv (packCmd op sa sb a b) = 0 := by
  refine BitVec.eq_of_getLsbD_eq fun i hi => ?_
  simp only [cmdRsv, packCmd, BitVec.getLsbD_extractLsb', BitVec.getLsbD_append, hi, decide_true, Bool.true_and]
  split_ifs <;> first | omega | simp

@[simp] theorem cmdA_packCmd : cmdA (packCmd op sa sb a b) = a := by
  refine BitVec.eq_of_getLsbD_eq fun i hi => ?_
  simp only [cmdA, packCmd, BitVec.getLsbD_extractLsb', BitVec.getLsbD_append, hi, decide_true, Bool.true_and]
  split_ifs <;> first | omega | (congr 1; omega)

@[simp] theorem cmdB_packCmd : cmdB (packCmd op sa sb a b) = b := by
  refine BitVec.eq_of_getLsbD_eq fun i hi => ?_
  simp only [cmdB, packCmd, BitVec.getLsbD_extractLsb', BitVec.getLsbD_append, hi, decide_true, Bool.true_and]
  split_ifs <;> first | omega | (congr 1; omega)

/-- A word is its six fields: with RSV 0 it is packed from the others. -/
theorem packCmd_fields (cw : Word) (h : cmdRsv cw = 0) :
    packCmd (cmdOp cw) (cmdSa cw) (cmdSb cw) (cmdA cw) (cmdB cw) = cw := by
  have h0 : packCmd (cmdOp cw) (cmdSa cw) (cmdSb cw) (cmdA cw) (cmdB cw) =
      cmdOp cw ++ cmdSa cw ++ cmdSb cw ++ cmdRsv cw ++ cmdA cw ++ cmdB cw := by rw [h, packCmd]
  rw [h0]
  refine BitVec.eq_of_getLsbD_eq fun i hi => ?_
  simp only [cmdOp, cmdSa, cmdSb, cmdRsv, cmdA, cmdB, BitVec.getLsbD_extractLsb', BitVec.getLsbD_append]
  have field : ∀ {d : Prop} [Decidable d] {k : Nat}, d → k = i → (decide d && cw.getLsbD k) = cw.getLsbD i := by
    intro d _ k hd hk
    rw [decide_eq_true hd, Bool.true_and, hk]
  split_ifs <;> exact field (by omega) (by omega)

/-! ### Opcodes (30_encoding.md R64, R67) -/

@[simp] theorem opcodeOf_code (o : Opcode) : opcodeOf o.code = some o := by cases o <;> rfl

/-- An OP field names the command whose opcode it is. -/
theorem code_of_opcodeOf {op : BitVec 4} {o : Opcode} (h : opcodeOf op = some o) : o.code = op := by
  revert op o; decide

/-- The reserved opcodes are 0x0 and 0xC to 0xF (30_encoding.md R67). -/
theorem opcodeOf_eq_none (op : BitVec 4) : opcodeOf op = none ↔ op = 0x0 ∨ 0xC ≤ op.toNat := by
  revert op; decide

namespace Machine

/-! ### The fields of a response word (30_encoding.md R62) -/

variable (st : Status) (p r : Field24)

/-- A response word is its fields side by side, the reserved bits 0. -/
theorem responseWord_eq : responseWord st p r = st.code ++ (0 : BitVec 12) ++ p ++ r := by
  refine BitVec.eq_of_getLsbD_eq fun i hi => ?_
  simp only [responseWord, BitVec.getLsbD_or, BitVec.getLsbD_shiftLeft, BitVec.getLsbD_setWidth,
    BitVec.getLsbD_append, hi, decide_true, Bool.true_and]
  by_cases h1 : i < 24
  · simp [h1, show i < 60 by omega]
  · by_cases h2 : i < 48
    · simp [h1, show i < 60 by omega, show i - 24 < 24 by omega, show i - 24 < 64 by omega,
        BitVec.getLsbD_of_ge r i (by omega)]
    · by_cases h3 : i < 60
      · simp [h1, h3, show ¬ i - 24 < 24 by omega, show i - 24 - 24 < 12 by omega,
          BitVec.getLsbD_of_ge r i (by omega), BitVec.getLsbD_of_ge p (i - 24) (by omega)]
      · simp [h1, h3, show ¬ i - 24 < 24 by omega, show ¬ i - 24 - 24 < 12 by omega, show i - 60 < 64 by omega,
          BitVec.getLsbD_of_ge r i (by omega), BitVec.getLsbD_of_ge p (i - 24) (by omega),
          show i - 24 - 24 - 12 = i - 60 by omega]

@[simp] theorem respStatus_responseWord : respStatus (responseWord st p r) = st.code := by
  rw [responseWord_eq]
  refine BitVec.eq_of_getLsbD_eq fun i hi => ?_
  simp only [respStatus, BitVec.getLsbD_extractLsb', BitVec.getLsbD_append, hi, decide_true, Bool.true_and]
  split_ifs <;> first | omega | (congr 1; omega)

@[simp] theorem respReserved_responseWord : respReserved (responseWord st p r) = 0 := by
  rw [responseWord_eq]
  refine BitVec.eq_of_getLsbD_eq fun i hi => ?_
  simp only [respReserved, BitVec.getLsbD_extractLsb', BitVec.getLsbD_append, hi, decide_true, Bool.true_and]
  split_ifs <;> first | omega | simp

@[simp] theorem respP_responseWord : respP (responseWord st p r) = p := by
  rw [responseWord_eq]
  refine BitVec.eq_of_getLsbD_eq fun i hi => ?_
  simp only [respP, BitVec.getLsbD_extractLsb', BitVec.getLsbD_append, hi, decide_true, Bool.true_and]
  split_ifs <;> first | omega | (congr 1; omega)

@[simp] theorem respR_responseWord : respR (responseWord st p r) = r := by
  rw [responseWord_eq]
  refine BitVec.eq_of_getLsbD_eq fun i hi => ?_
  simp only [respR, BitVec.getLsbD_extractLsb', BitVec.getLsbD_append, hi, decide_true, Bool.true_and]
  split_ifs <;> first | omega | (congr 1; omega)

end Machine

end Sys2Proof
end

