-- ==== Sys2Proof/Laws/State.lean ====
section
/-! SUPPORT. One lemma per field per update of State, and what each update does to the bank. -/

namespace Sys2Proof.Machine

/-! ### setSlot -/

@[simp] theorem setSlot_slots (s : State) (n : SlotNo) (v : Slot) : (s.setSlot n v).slots = s.slots.set n.toNat v := rfl
@[simp] theorem setSlot_rbuf (s : State) (n : SlotNo) (v : Slot) : (s.setSlot n v).rbuf = s.rbuf := rfl
@[simp] theorem setSlot_inFlight (s : State) (n : SlotNo) (v : Slot) : (s.setSlot n v).inFlight = s.inFlight := rfl
@[simp] theorem setSlot_accepted (s : State) (n : SlotNo) (v : Slot) : (s.setSlot n v).accepted = s.accepted := rfl
@[simp] theorem setSlot_taken (s : State) (n : SlotNo) (v : Slot) : (s.setSlot n v).taken = s.taken := rfl
@[simp] theorem setSlot_host (s : State) (n : SlotNo) (v : Slot) : (s.setSlot n v).host = s.host := rfl

/-! ### answered -/

@[simp] theorem answered_slots (s : State) (w : Word) : (s.answered w).slots = s.slots := rfl
@[simp] theorem answered_rbuf (s : State) (w : Word) : (s.answered w).rbuf = some w := rfl
@[simp] theorem answered_inFlight (s : State) (w : Word) : (s.answered w).inFlight = none := rfl
@[simp] theorem answered_accepted (s : State) (w : Word) : (s.answered w).accepted = s.accepted := rfl
@[simp] theorem answered_taken (s : State) (w : Word) : (s.answered w).taken = s.taken := rfl
@[simp] theorem answered_host (s : State) (w : Word) : (s.answered w).host = s.host := rfl

/-! ### takeResponse -/

@[simp] theorem takeResponse_slots (r : Word) (s : State) : (takeResponse r s).slots = s.slots := rfl
@[simp] theorem takeResponse_rbuf (r : Word) (s : State) : (takeResponse r s).rbuf = none := rfl
@[simp] theorem takeResponse_inFlight (r : Word) (s : State) : (takeResponse r s).inFlight = s.inFlight := rfl
@[simp] theorem takeResponse_accepted (r : Word) (s : State) : (takeResponse r s).accepted = s.accepted := rfl
@[simp] theorem takeResponse_taken (r : Word) (s : State) : (takeResponse r s).taken = s.taken ++ [r] := rfl
@[simp] theorem takeResponse_host (r : Word) (s : State) : (takeResponse r s).host = s.host := rfl

/-! ### acceptCommand -/

@[simp] theorem acceptCommand_slots (cw : Word) (s : State) : (acceptCommand cw s).slots = s.slots := rfl
@[simp] theorem acceptCommand_rbuf (cw : Word) (s : State) : (acceptCommand cw s).rbuf = s.rbuf := rfl
@[simp] theorem acceptCommand_inFlight (cw : Word) (s : State) : (acceptCommand cw s).inFlight = some cw := rfl
@[simp] theorem acceptCommand_accepted (cw : Word) (s : State) : (acceptCommand cw s).accepted = s.accepted + 1 := rfl
@[simp] theorem acceptCommand_taken (cw : Word) (s : State) : (acceptCommand cw s).taken = s.taken := rfl
@[simp] theorem acceptCommand_host (cw : Word) (s : State) : (acceptCommand cw s).host = s.host := rfl

/-! ### resetUnit -/

@[simp] theorem resetUnit_slots (s : State) (rest : List HostMove) : (resetUnit s rest).slots = List.replicate s.nslot Slot.empty := rfl
@[simp] theorem resetUnit_rbuf (s : State) (rest : List HostMove) : (resetUnit s rest).rbuf = none := rfl
@[simp] theorem resetUnit_inFlight (s : State) (rest : List HostMove) : (resetUnit s rest).inFlight = none := rfl
@[simp] theorem resetUnit_accepted (s : State) (rest : List HostMove) : (resetUnit s rest).accepted = 0 := rfl
@[simp] theorem resetUnit_taken (s : State) (rest : List HostMove) : (resetUnit s rest).taken = [] := rfl
@[simp] theorem resetUnit_host (s : State) (rest : List HostMove) : (resetUnit s rest).host = rest := rfl

/-! ### placeCommand -/

@[simp] theorem placeCommand_slots (cw : Word) (s : State) : (placeCommand cw s).slots = s.slots := rfl
@[simp] theorem placeCommand_rbuf (cw : Word) (s : State) : (placeCommand cw s).rbuf = none := rfl
@[simp] theorem placeCommand_inFlight (cw : Word) (s : State) : (placeCommand cw s).inFlight = some cw := rfl
@[simp] theorem placeCommand_accepted (cw : Word) (s : State) : (placeCommand cw s).accepted = s.accepted := rfl
@[simp] theorem placeCommand_taken (cw : Word) (s : State) : (placeCommand cw s).taken = s.taken := rfl
@[simp] theorem placeCommand_host (cw : Word) (s : State) : (placeCommand cw s).host = dropResets s.host := rfl

/-! ### resetOf -/

@[simp] theorem resetOf_slots (n : Nat) : (State.resetOf n).slots = List.replicate n Slot.empty := rfl
@[simp] theorem resetOf_rbuf (n : Nat) : (State.resetOf n).rbuf = none := rfl
@[simp] theorem resetOf_inFlight (n : Nat) : (State.resetOf n).inFlight = none := rfl
@[simp] theorem resetOf_accepted (n : Nat) : (State.resetOf n).accepted = 0 := rfl
@[simp] theorem resetOf_taken (n : Nat) : (State.resetOf n).taken = [] := rfl
@[simp] theorem resetOf_host (n : Nat) : (State.resetOf n).host = [] := rfl

/-! ### The bank under each update -/

@[simp] theorem setSlot_nslot (s : State) (n : SlotNo) (v : Slot) : (s.setSlot n v).nslot = s.nslot := by
  simp [State.nslot]

@[simp] theorem answered_nslot (s : State) (w : Word) : (s.answered w).nslot = s.nslot := rfl
@[simp] theorem takeResponse_nslot (r : Word) (s : State) : (takeResponse r s).nslot = s.nslot := rfl
@[simp] theorem acceptCommand_nslot (cw : Word) (s : State) : (acceptCommand cw s).nslot = s.nslot := rfl
@[simp] theorem resetUnit_nslot (s : State) (rest : List HostMove) : (resetUnit s rest).nslot = s.nslot := by
  simp [State.nslot]
@[simp] theorem host_nslot (s : State) (moves : List HostMove) : State.nslot { s with host := moves } = s.nslot :=
  rfl

@[simp] theorem answered_slotAt (s : State) (w : Word) (n : SlotNo) : (s.answered w).slotAt n = s.slotAt n := rfl
@[simp] theorem takeResponse_slotAt (r : Word) (s : State) (n : SlotNo) :
    (takeResponse r s).slotAt n = s.slotAt n := rfl
@[simp] theorem acceptCommand_slotAt (cw : Word) (s : State) (n : SlotNo) :
    (acceptCommand cw s).slotAt n = s.slotAt n := rfl
@[simp] theorem host_slotAt (s : State) (moves : List HostMove) (n : SlotNo) :
    State.slotAt { s with host := moves } n = s.slotAt n := rfl

/-- A slot is there exactly when its number is below `NSLOT`. -/
theorem slotAt_isSome (s : State) (n : SlotNo) : (s.slotAt n).isSome = decide (n.toNat < s.nslot) := by
  rw [Bool.eq_iff_iff, decide_eq_true_iff]
  simp [State.slotAt, State.nslot]

theorem slotAt_eq_none (s : State) (n : SlotNo) : s.slotAt n = none ↔ s.nslot ≤ n.toNat := by
  simp [State.slotAt, State.nslot]

theorem slotAt_lt {s : State} {n : SlotNo} {v : Slot} (h : s.slotAt n = some v) : n.toNat < s.nslot := by
  have := slotAt_isSome s n
  simpa [h] using this

theorem slotAt_mem {s : State} {n : SlotNo} {v : Slot} (h : s.slotAt n = some v) : v ∈ s.slots :=
  List.mem_of_getElem? h

/-- The slot just written, in a bank that has it. -/
theorem setSlot_slotAt_same {s : State} {n : SlotNo} (v : Slot) (h : n.toNat < s.nslot) :
    (s.setSlot n v).slotAt n = some v := by
  simp only [State.nslot] at h
  simp [State.slotAt, h]

/-- Every other slot is as before (10_state.md R33). -/
theorem setSlot_slotAt_other (s : State) {n k : SlotNo} (v : Slot) (h : k ≠ n) :
    (s.setSlot n v).slotAt k = s.slotAt k := by
  have hne : n.toNat ≠ k.toNat := fun e => h (BitVec.eq_of_toNat_eq e.symm)
  simp [State.slotAt, hne]

theorem setSlot_slotAt {s : State} {n : SlotNo} (v : Slot) (k : SlotNo) (h : n.toNat < s.nslot) :
    (s.setSlot n v).slotAt k = if k = n then some v else s.slotAt k := by
  by_cases e : k = n
  · subst e; simp [setSlot_slotAt_same v h]
  · simp [e, setSlot_slotAt_other s v e]

/-- The storage of every slot of `State.reset` is in canonical form. -/
theorem reset_memory_wf : ∀ v ∈ State.reset.slots, v.st.wf = true := by
  intro v hv
  rw [List.eq_of_mem_replicate hv]
  rfl

/-- Every slot of the bank after a reset is the empty array. -/
theorem resetUnit_slotAt {s : State} {rest : List HostMove} {n : SlotNo} {v : Slot}
    (h : (resetUnit s rest).slotAt n = some v) : v = Slot.empty := by
  simp only [State.slotAt, resetUnit_slots, List.getElem?_replicate] at h
  split at h <;> simp_all

end Sys2Proof.Machine
end

