-- ==== Sys2Proof/Laws/Words.lean ====
section
/-! SUPPORT. The word-wise readings of COUNT and the comparisons, bit by bit (44_popcount.md R152,
45_comparison.md R164). -/

namespace Sys2Proof.Machine

/-- The buffer covers the length (00_scope.md R12). -/
theorem len_le_buffer (len : Nat) : len ≤ 64 * nwords len := by unfold nwords; omega

/-- The buffer of a 24-bit length fits the capacity (00_scope.md R7). -/
theorem buffer_le_capBits (len : Field24) : 64 * nwords len.toNat ≤ Config.capBits := by
  have := len.isLt
  simp only [nwords, Config.capBits, Config.capW]; omega

theorem field24_lt_capBits (i : Field24) : i.toNat < Config.capBits := by
  have := i.isLt
  simp only [Config.capBits, Config.capW]; omega

/-- A byte read is a listed byte, or 0. -/
theorem memRead_listed (m : Memory) (k : Nat) : (k, memRead m k) ∈ m ∨ memRead m k = 0 := by
  induction m with
  | nil => exact .inr rfl
  | cons c m ih =>
    obtain ⟨a, b⟩ := c
    rw [memRead_cons]
    split
    · next e => subst e; exact .inl (List.mem_cons_self)
    · exact ih.imp_left (List.mem_cons_of_mem _)

/-- INV by a check of the listed bytes only. -/
theorem padded_of_cells {v : Slot}
    (h : ∀ c ∈ v.st, ∀ k < 8, c.2.getLsbD k = true → 8 * c.1 + k < v.len.toNat) : v.Padded := by
  intro i hi _
  rw [bitAt_def]
  obtain hm | hz := memRead_listed v.st (i / 8)
  · by_contra hc
    have := h _ hm (i % 8) (Nat.mod_lt _ (by omega)) (by simpa using hc)
    dsimp only at this
    omega
  · rw [hz]; simp

/-- The sum of the words' population counts counts the bits of the words. -/
theorem sum_popcount (m : Memory) (n : Nat) :
    (((List.range n).map (memWord m)).map popcount).sum = (List.range (64 * n)).countP (bitAt m) := by
  induction n with
  | zero => rfl
  | succ n ih =>
    rw [List.range_succ, List.map_append, List.map_append, List.sum_append, ih, Nat.mul_succ, List.range_add,
      List.countP_append, List.countP_map]
    simp only [List.map_cons, List.map_nil, List.sum_cons, List.sum_nil, Nat.add_zero, popcount_memWord]
    rfl

/-- Bits beyond `n` that are all 0 add nothing to a count. -/
theorem countP_range_padding {p : Nat → Bool} {n k : Nat} (h : n ≤ k) (hp : ∀ i, n ≤ i → i < k → p i = false) :
    (List.range k).countP p = (List.range n).countP p := by
  obtain ⟨d, rfl⟩ := Nat.exists_eq_add_of_le h
  have hz : (List.range d).countP (p ∘ fun i => n + i) = 0 := List.countP_eq_zero.2 fun i hi => by
    have := List.mem_range.1 hi
    simp [hp (n + i) (by omega) (by omega)]
  rw [List.range_add, List.countP_append, List.countP_map, hz, Nat.add_zero]

/-- Under INV, COUNT's sum counts the bits below the length (44_popcount.md R152). -/
theorem slotCount_eq {v : Slot} (h : v.Padded) :
    slotCount v = (List.range v.len.toNat).countP (bitAt v.st) := by
  rw [slotCount, bufferWords, sum_popcount]
  exact countP_range_padding (len_le_buffer _) fun i h1 h2 => h i h1 (h2.trans_le (buffer_le_capBits _))

/-- So it is at most the length (44_popcount.md R152). -/
theorem slotCount_le {v : Slot} (h : v.Padded) : slotCount v ≤ v.len.toNat := by
  rw [slotCount_eq h]
  simpa using List.countP_le_length (p := bitAt v.st) (l := List.range v.len.toNat)

/-- The pairs of words two buffers of one length give. -/
theorem zip_bufferWords {a b : Slot} (hlen : a.len = b.len) :
    (bufferWords a).zip (bufferWords b) =
      (List.range (nwords a.len.toNat)).map fun w => (memWord a.st w, memWord b.st w) := by
  rw [bufferWords, bufferWords, hlen, List.zip_map']

/-- A property of every bit of the words is one of every bit below the length, if it holds beyond it. -/
theorem forall_words_iff {len : Nat} {P : Nat → Prop} (hpad : ∀ i, len ≤ i → i < 64 * nwords len → P i) :
    (∀ w < nwords len, ∀ j < 64, P (64 * w + j)) ↔ ∀ i < len, P i := by
  constructor
  · intro h i hi
    have := len_le_buffer len
    have := h (i / 64) (by omega) (i % 64) (by omega)
    rwa [show 64 * (i / 64) + i % 64 = i by omega] at this
  · intro h w hw j hj
    by_cases hl : 64 * w + j < len
    · exact h _ hl
    · exact hpad _ (by omega) (by omega)

/-- EQ's word-wise verdict, bit by bit (45_comparison.md R164). -/
theorem allEqual_iff {a b : Slot} (ha : a.Padded) (hb : b.Padded) (hlen : a.len = b.len) :
    allEqual ((bufferWords a).zip (bufferWords b)) = true ↔
      ∀ i < a.len.toNat, bitAt a.st i = bitAt b.st i := by
  have hpad : ∀ i, a.len.toNat ≤ i → i < 64 * nwords a.len.toNat → bitAt a.st i = bitAt b.st i := by
    intro i h1 h2
    have h3 := h2.trans_le (buffer_le_capBits a.len)
    rw [ha i h1 h3, hb i (hlen ▸ h1) h3]
  rw [zip_bufferWords hlen, allEqual, ← forall_words_iff hpad]
  simp [List.all_eq_true, memWord_eq_iff]

/-- LEQ's word-wise verdict, bit by bit (45_comparison.md R164). -/
theorem allSubset_iff {a b : Slot} (ha : a.Padded) (hlen : a.len = b.len) :
    allSubset ((bufferWords a).zip (bufferWords b)) = true ↔
      ∀ i < a.len.toNat, bitAt a.st i = true → bitAt b.st i = true := by
  have hpad : ∀ i, a.len.toNat ≤ i → i < 64 * nwords a.len.toNat → bitAt a.st i = true → bitAt b.st i = true := by
    intro i h1 h2 h
    rw [ha i h1 (h2.trans_le (buffer_le_capBits a.len))] at h
    exact Bool.noConfusion h
  rw [zip_bufferWords hlen, allSubset, ← forall_words_iff hpad]
  simp only [List.all_map, List.all_eq_true, List.mem_range, Function.comp_apply, beq_iff_eq, memWord_subset_iff]

/-- Some word differs exactly when not every word is the same (45_comparison.md R163). -/
theorem someDiffers_eq (ps : List (Word × Word)) : someDiffers ps = !allEqual ps := by
  induction ps with
  | nil => rfl
  | cons p ps ih =>
    simp only [someDiffers, allEqual, List.any_cons, List.all_cons] at ih ⊢
    rw [ih, Bool.not_and]
    rfl

end Sys2Proof.Machine
end

