-- ==== Sys2Proof/Laws/Ops.lean ====
section
/-! SUPPORT. Each shared operation, said once: when it answers what. -/

namespace Sys2Proof.Machine

/-! ### Validation (41_validation.md R110, R111) -/

theorem checkIndex_none {len i : Field24} : checkIndex len i = none ↔ i.toNat < len.toNat := by
  unfold checkIndex
  split <;> simp <;> omega

theorem checkIndex_some {len i : Field24} (h : len.toNat ≤ i.toNat) :
    checkIndex len i = some (.outOfRange i len) := if_pos h

theorem checkRange_none {len low high : Field24} :
    checkRange len low high = none ↔ low.toNat ≤ high.toNat ∧ high.toNat < len.toNat := by
  unfold checkRange
  split_ifs <;> simp <;> omega

theorem checkRange_invalid {len low high : Field24} (h : high.toNat < low.toNat) :
    checkRange len low high = some .invalidRange := if_pos h

theorem checkRange_low {len low high : Field24} (h : low.toNat ≤ high.toNat) (hl : len.toNat ≤ low.toNat) :
    checkRange len low high = some (.outOfRange low len) := by
  rw [checkRange, if_neg (by omega), if_pos hl]

theorem checkRange_high {len low high : Field24} (h : low.toNat < len.toNat) (hl : len.toNat ≤ high.toNat) :
    checkRange len low high = some (.outOfRange high len) := by
  rw [checkRange, if_neg (by omega), if_neg (by omega), if_pos hl]

/-! ### Running on a slot, and guarding -/

theorem withSlot_some {s : State} {n : SlotNo} {v : Slot} (h : s.slotAt n = some v) (k : Slot → Result) :
    withSlot n s k = k v := by simp [withSlot, h]

theorem withSlot_none {s : State} {n : SlotNo} (h : s.slotAt n = none) (k : Slot → Result) :
    withSlot n s k = raiseError .illegalCommand s := by simp [withSlot, h]

@[simp] theorem guarded_none (s : State) (k : Result) : guarded none s k = k := rfl
@[simp] theorem guarded_some (e : CommandError) (s : State) (k : Result) : guarded (some e) s k = raiseError e s :=
  rfl

/-- What `withSlot` can answer: the continuation's answer on that slot, or ILLEGAL_COMMAND. -/
theorem withSlot_cases {n : SlotNo} {s t : State} {k : Slot → Result} (h : withSlot n s k = .next t) :
    (∃ v, s.slotAt n = some v ∧ k v = .next t) ∨
      (s.slotAt n = none ∧ t = s.answered CommandError.illegalCommand.response) := by
  cases hv : s.slotAt n with
  | some v => exact .inl ⟨v, rfl, by rwa [withSlot_some hv] at h⟩
  | none =>
    rw [withSlot_none hv, raiseError] at h
    cases h
    exact .inr ⟨rfl, rfl⟩

/-- What `guarded` can answer: the error's response, or the continuation's answer. -/
theorem guarded_cases {c : Option CommandError} {s t : State} {k : Result} (h : guarded c s k = .next t) :
    (∃ e, c = some e ∧ t = s.answered e.response) ∨ (c = none ∧ k = .next t) := by
  cases c with
  | none => exact .inr ⟨rfl, h⟩
  | some e => cases h; exact .inl ⟨e, rfl, rfl⟩

/-! ### The families' shared algorithms -/

/-- `rangeApply` on a valid range of a slot of the bank. -/
theorem rangeApply_valid (op : RangeOp) {s : State} {sa : SlotNo} {v : Slot} {low high : Field24}
    (hv : s.slotAt sa = some v) (hle : low.toNat ≤ high.toNat) (hlen : high.toNat < v.len.toNat) :
    rangeApply op sa low high s =
      .next ((s.setSlot sa { v with st := rangeMem op v.st low.toNat high.toNat }).answered
        (responseWord .ok 0 0)) := by
  rw [rangeApply, withSlot_some hv, checkRange_none.2 ⟨hle, hlen⟩]
  rfl

/-- `rangeApply` on a range that a check refuses: the error's response, and nothing else. -/
theorem rangeApply_error (op : RangeOp) {s : State} {sa : SlotNo} {v : Slot} {low high : Field24}
    {e : CommandError} (hv : s.slotAt sa = some v) (he : checkRange v.len low high = some e) :
    rangeApply op sa low high s = .next (s.answered e.response) := by
  rw [rangeApply, withSlot_some hv, he]
  rfl

/-- What `rangeApply` can answer. -/
theorem rangeApply_cases {op : RangeOp} {sa : SlotNo} {low high : Field24} {s t : State}
    (h : rangeApply op sa low high s = .next t) :
    (∃ w, t = s.answered w) ∨
      ∃ v, s.slotAt sa = some v ∧ low.toNat ≤ high.toNat ∧ high.toNat < v.len.toNat ∧
        t = (s.setSlot sa { v with st := rangeMem op v.st low.toNat high.toNat }).answered
          (responseWord .ok 0 0) := by
  obtain ⟨v, hv, h⟩ | ⟨-, rfl⟩ := withSlot_cases h
  · obtain ⟨e, -, rfl⟩ | ⟨hc, h⟩ := guarded_cases h
    · exact .inl ⟨_, rfl⟩
    · obtain ⟨hle, hlen⟩ := checkRange_none.1 hc
      cases h
      exact .inr ⟨v, hv, hle, hlen, rfl⟩
  · exact .inl ⟨_, rfl⟩

/-- `compareSlots` on two slots of the bank with one length. -/
theorem compareSlots_sameLen (verdict : List (Word × Word) → Bool) {s : State} {sa sb : SlotNo} {a b : Slot}
    (ha : s.slotAt sa = some a) (hb : s.slotAt sb = some b) (h : a.len = b.len) :
    compareSlots verdict sa sb s =
      .next (s.answered (responseWord .ok 0 (boolField (verdict ((bufferWords a).zip (bufferWords b)))))) := by
  rw [compareSlots, withSlot_some ha, withSlot_some hb, if_neg (not_not.2 h)]
  rfl

/-- `compareSlots` on a length mismatch answers 0. -/
theorem compareSlots_mismatch (verdict : List (Word × Word) → Bool) {s : State} {sa sb : SlotNo} {a b : Slot}
    (ha : s.slotAt sa = some a) (hb : s.slotAt sb = some b) (h : a.len ≠ b.len) :
    compareSlots verdict sa sb s = .next (s.answered (responseWord .ok 0 0)) := by
  rw [compareSlots, withSlot_some ha, withSlot_some hb, if_pos h]
  rfl

/-- A comparison only answers. -/
theorem compareSlots_cases {verdict : List (Word × Word) → Bool} {sa sb : SlotNo} {s t : State}
    (h : compareSlots verdict sa sb s = .next t) : ∃ w, t = s.answered w := by
  obtain ⟨a, -, h⟩ | ⟨-, rfl⟩ := withSlot_cases h
  · obtain ⟨b, -, h⟩ | ⟨-, rfl⟩ := withSlot_cases h
    · split at h <;> (cases h; exact ⟨_, rfl⟩)
    · exact ⟨_, rfl⟩
  · exact ⟨_, rfl⟩

/-! ### Soundness of a slot under each write -/

theorem sound_empty (len : Field24) : Slot.Sound { len := len, st := memZero } :=
  ⟨memZero_wf, fun i _ _ => bitAt_zero i⟩

theorem sound_putBit {v : Slot} (h : v.Sound) {i x : Field24} (hi : i.toNat < v.len.toNat) :
    Slot.Sound { v with st := putBit v.st i.toNat x } := by
  obtain ⟨hw, hb⟩ := putBit_spec h.canonical (field24_lt_capBits i) x
  refine ⟨hw, fun j h1 h2 => ?_⟩
  have h1 : v.len.toNat ≤ j := h1
  rw [hb, if_neg (by omega)]
  exact h.padded j h1 h2

theorem sound_rangeMem (op : RangeOp) {v : Slot} (h : v.Sound) {low high : Field24}
    (hle : low.toNat ≤ high.toNat) (hlen : high.toNat < v.len.toNat) :
    Slot.Sound { v with st := rangeMem op v.st low.toNat high.toNat } := by
  obtain ⟨hw, hb⟩ := rangeMem_spec op h.canonical hle (field24_lt_capBits high)
  refine ⟨hw, fun j h1 h2 => ?_⟩
  have h1 : v.len.toNat ≤ j := h1
  rw [hb, if_neg (by omega)]
  exact h.padded j h1 h2

end Sys2Proof.Machine
end

