-- ==== Sys2Proof/Laws/PerInstr.lean ====
section
/-! SUPPORT. Facts about every command as syntax, one lemma per constructor. -/

namespace Sys2Proof.Laws

/-- The word of a command carries its opcode, RSV 0, and 0 in each field it does not use
(30_encoding.md R64). -/
def EncodedFields.Statement (i : Instr) : Prop :=
  cmdOp (encode i) = i.opcode.code ∧ cmdRsv (encode i) = 0 ∧
    (i.opcode.usesSb = false → cmdSb (encode i) = 0) ∧ (i.opcode.usesA = false → cmdA (encode i) = 0) ∧
    (i.opcode.usesB = false → cmdB (encode i) = 0)

theorem EncodedFields.new (sa : SlotNo) (length : Field24) : EncodedFields.Statement (.new sa length) := by
  simp [EncodedFields.Statement, encode, Instr.opcode, Opcode.usesSb, Opcode.usesA, Opcode.usesB]
theorem EncodedFields.len (sa : SlotNo) : EncodedFields.Statement (.len sa) := by
  simp [EncodedFields.Statement, encode, Instr.opcode, Opcode.usesSb, Opcode.usesA, Opcode.usesB]
theorem EncodedFields.get (sa : SlotNo) (index : Field24) : EncodedFields.Statement (.get sa index) := by
  simp [EncodedFields.Statement, encode, Instr.opcode, Opcode.usesSb, Opcode.usesA, Opcode.usesB]
theorem EncodedFields.put (sa : SlotNo) (index value : Field24) : EncodedFields.Statement (.put sa index value) := by
  simp [EncodedFields.Statement, encode, Instr.opcode, Opcode.usesSb, Opcode.usesA, Opcode.usesB]
theorem EncodedFields.set (sa : SlotNo) (low high : Field24) : EncodedFields.Statement (.set sa low high) := by
  simp [EncodedFields.Statement, encode, Instr.opcode, Opcode.usesSb, Opcode.usesA, Opcode.usesB]
theorem EncodedFields.clear (sa : SlotNo) (low high : Field24) : EncodedFields.Statement (.clear sa low high) := by
  simp [EncodedFields.Statement, encode, Instr.opcode, Opcode.usesSb, Opcode.usesA, Opcode.usesB]
theorem EncodedFields.not (sa : SlotNo) (low high : Field24) : EncodedFields.Statement (.not sa low high) := by
  simp [EncodedFields.Statement, encode, Instr.opcode, Opcode.usesSb, Opcode.usesA, Opcode.usesB]
theorem EncodedFields.count (sa : SlotNo) : EncodedFields.Statement (.count sa) := by
  simp [EncodedFields.Statement, encode, Instr.opcode, Opcode.usesSb, Opcode.usesA, Opcode.usesB]
theorem EncodedFields.eq (sa sb : SlotNo) : EncodedFields.Statement (.eq sa sb) := by
  simp [EncodedFields.Statement, encode, Instr.opcode, Opcode.usesSb, Opcode.usesA, Opcode.usesB]
theorem EncodedFields.leq (sa sb : SlotNo) : EncodedFields.Statement (.leq sa sb) := by
  simp [EncodedFields.Statement, encode, Instr.opcode, Opcode.usesSb, Opcode.usesA, Opcode.usesB]
theorem EncodedFields.lt (sa sb : SlotNo) : EncodedFields.Statement (.lt sa sb) := by
  simp [EncodedFields.Statement, encode, Instr.opcode, Opcode.usesSb, Opcode.usesA, Opcode.usesB]

end Sys2Proof.Laws
end

