-- ==== Sys2Proof/Laws/Step.lean ====
section
/-! SUPPORT. What a command, a command word and a step of the machine can do, each said once. -/

namespace Sys2Proof.Machine

/-! ### The arms of exec -/

theorem exec_new (sa : SlotNo) (l : Field24) (s : State) : exec (.new sa l) s = execNew sa l s := rfl
theorem exec_len (sa : SlotNo) (s : State) : exec (.len sa) s = execLen sa s := rfl
theorem exec_get (sa : SlotNo) (i : Field24) (s : State) : exec (.get sa i) s = execGet sa i s := rfl
theorem exec_put (sa : SlotNo) (i v : Field24) (s : State) : exec (.put sa i v) s = execPut sa i v s := rfl
theorem exec_set (sa : SlotNo) (l h : Field24) (s : State) : exec (.set sa l h) s = rangeApply .set sa l h s := rfl
theorem exec_clear (sa : SlotNo) (l h : Field24) (s : State) :
    exec (.clear sa l h) s = rangeApply .clear sa l h s := rfl
theorem exec_not (sa : SlotNo) (l h : Field24) (s : State) : exec (.not sa l h) s = rangeApply .not sa l h s := rfl
theorem exec_count (sa : SlotNo) (s : State) : exec (.count sa) s = execCount sa s := rfl
theorem exec_eq (sa sb : SlotNo) (s : State) : exec (.eq sa sb) s = compareSlots allEqual sa sb s := rfl
theorem exec_leq (sa sb : SlotNo) (s : State) : exec (.leq sa sb) s = compareSlots allSubset sa sb s := rfl
theorem exec_lt (sa sb : SlotNo) (s : State) :
    exec (.lt sa sb) s = compareSlots (fun ps => allSubset ps && someDiffers ps) sa sb s := rfl

/-! ### Inversion -/

/-- What a command can do, if it answers `t`: only answer; or rewrite the one slot it writes, keeping a sound
slot sound, with the status OK. -/
theorem exec_cases {i : Instr} {s t : State} (h : exec i s = .next t) :
    (∃ w, t = s.answered w) ∨
      ∃ sa v v' w, slotWritten i = some sa ∧ s.slotAt sa = some v ∧ (v.Sound → v'.Sound) ∧
        (i.opcode ≠ .new → v'.len = v.len) ∧ respStatus w = 0 ∧ t = (s.setSlot sa v').answered w := by
  have range : ∀ (op : RangeOp) (sa : SlotNo) (lo hi : Field24), slotWritten i = some sa → i.opcode ≠ .new →
      rangeApply op sa lo hi s = .next t → (∃ w, t = s.answered w) ∨
        ∃ sa v v' w, slotWritten i = some sa ∧ s.slotAt sa = some v ∧ (v.Sound → v'.Sound) ∧
          (i.opcode ≠ .new → v'.len = v.len) ∧ respStatus w = 0 ∧ t = (s.setSlot sa v').answered w := by
    intro op sa lo hi hw _ h
    obtain ⟨w, rfl⟩ | ⟨v, hv, h1, h2, rfl⟩ := rangeApply_cases h
    · exact .inl ⟨w, rfl⟩
    · exact .inr ⟨sa, v, _, _, hw, hv, fun hs => sound_rangeMem op hs h1 h2, fun _ => rfl,
        respStatus_responseWord .ok 0 0, rfl⟩
  cases i with
  | new sa l =>
    obtain ⟨v, hv, h⟩ | ⟨-, rfl⟩ := withSlot_cases h
    · cases h
      exact .inr ⟨sa, v, _, _, rfl, hv, fun _ => sound_empty l, fun hn => absurd rfl hn,
        respStatus_responseWord .ok 0 0, rfl⟩
    · exact .inl ⟨_, rfl⟩
  | len sa =>
    obtain ⟨v, -, h⟩ | ⟨-, rfl⟩ := withSlot_cases h
    · cases h; exact .inl ⟨_, rfl⟩
    · exact .inl ⟨_, rfl⟩
  | get sa i =>
    obtain ⟨v, -, h⟩ | ⟨-, rfl⟩ := withSlot_cases h
    · obtain ⟨e, -, rfl⟩ | ⟨-, h⟩ := guarded_cases h
      · exact .inl ⟨_, rfl⟩
      · cases h; exact .inl ⟨_, rfl⟩
    · exact .inl ⟨_, rfl⟩
  | put sa i x =>
    obtain ⟨v, hv, h⟩ | ⟨-, rfl⟩ := withSlot_cases h
    · obtain ⟨e, -, rfl⟩ | ⟨hc, h⟩ := guarded_cases h
      · exact .inl ⟨_, rfl⟩
      · cases h
        exact .inr ⟨sa, v, _, _, rfl, hv, fun hs => sound_putBit hs (checkIndex_none.1 hc), fun _ => rfl,
          respStatus_responseWord .ok 0 _, rfl⟩
    · exact .inl ⟨_, rfl⟩
  | set sa lo hi => exact range .set sa lo hi rfl (fun e => Opcode.noConfusion e) h
  | clear sa lo hi => exact range .clear sa lo hi rfl (fun e => Opcode.noConfusion e) h
  | not sa lo hi => exact range .not sa lo hi rfl (fun e => Opcode.noConfusion e) h
  | count sa =>
    obtain ⟨v, -, h⟩ | ⟨-, rfl⟩ := withSlot_cases h
    · cases h; exact .inl ⟨_, rfl⟩
    · exact .inl ⟨_, rfl⟩
  | eq sa sb => exact .inl (compareSlots_cases (verdict := allEqual) h)
  | leq sa sb => exact .inl (compareSlots_cases (verdict := allSubset) h)
  | lt sa sb => exact .inl (compareSlots_cases (verdict := fun ps => allSubset ps && someDiffers ps) h)

/-- What executing a word can do: a command's `exec`, or ILLEGAL_COMMAND. -/
theorem executeWord_cases {cw : Word} {s t : State} (h : executeWord cw s = .next t) :
    (∃ i, decode s.nslot cw = .ok i ∧ exec i s = .next t) ∨
      ∃ e, decode s.nslot cw = .error e ∧ t = s.answered CommandError.illegalCommand.response := by
  unfold executeWord at h
  split at h
  · exact .inl ⟨_, ‹_›, h⟩
  · cases h; exact .inr ⟨_, ‹_›, rfl⟩

theorem executeWord_ok {cw : Word} {i : Instr} {s : State} (h : decode s.nslot cw = .ok i) :
    executeWord cw s = exec i s := by
  unfold executeWord; rw [h]

theorem executeWord_error {cw : Word} {e : Illegal} {s : State} (h : decode s.nslot cw = .error e) :
    executeWord cw s = raiseError .illegalCommand s := by
  unfold executeWord; rw [h]

/-- A step of a busy unit whose host neither resets nor makes no move. -/
theorem step_busy {s : State} {cw : Word} (hcw : s.inFlight = some cw) (hr : ∀ rest, s.host ≠ .reset :: rest)
    (hw : ∀ rest, s.host ≠ .wait :: rest) : step s = executeWord cw s := by
  unfold step transition
  split
  · exact absurd ‹_› (hr _)
  · rw [hcw]
    dsimp only
    unfold busyStep
    split
    · exact absurd ‹_› (hw _)
    · rfl

/-- A step of a busy unit whose host makes no move. -/
theorem step_busy_wait {s : State} {cw : Word} {rest : List HostMove} (hcw : s.inFlight = some cw)
    (hh : s.host = .wait :: rest) : step s = executeWord cw { s with host := rest } := by
  simp only [step, transition, busyStep, hh, hcw]

/-- What a step can do: a reset; the execution of the word in flight, with the host's moves perhaps one
fewer; or an idle unit's step. -/
theorem step_cases {s t : State} (h : step s = .next t) :
    (∃ rest, s.host = .reset :: rest ∧ t = resetUnit s rest) ∨
      (∃ cw moves, s.inFlight = some cw ∧ executeWord cw { s with host := moves } = .next t) ∨
      (s.inFlight = none ∧ t = idleStep s) := by
  unfold step transition at h
  split at h
  · cases h; exact .inl ⟨_, ‹_›, rfl⟩
  · split at h
    · next cw hcw =>
      refine .inr (.inl ⟨cw, ?_⟩)
      unfold busyStep at h
      split at h
      · exact ⟨_, hcw, h⟩
      · exact ⟨s.host, hcw, h⟩
    · cases h; exact .inr (.inr ⟨‹_›, rfl⟩)

/-- What an idle unit's step can do. -/
theorem idleStep_cases (s : State) :
    (∃ cw rest, s.host = .issue cw :: rest ∧ s.rbuf = none ∧
        idleStep s = acceptCommand cw { s with host := rest }) ∨
      (∃ r rest, s.host = .take :: rest ∧ s.rbuf = some r ∧ idleStep s = takeResponse r { s with host := rest }) ∨
      (∃ rest, s.host = .reset :: rest ∧ idleStep s = resetUnit s rest) ∨
      (∃ rest, s.host = .wait :: rest ∧ idleStep s = { s with host := rest }) ∨
      idleStep s = s := by
  unfold idleStep
  split
  · exact .inl ⟨_, _, ‹_›, ‹_›, rfl⟩
  · exact .inr (.inr (.inr (.inr rfl)))
  · exact .inr (.inl ⟨_, _, ‹_›, ‹_›, rfl⟩)
  · exact .inr (.inr (.inr (.inr rfl)))
  · exact .inr (.inr (.inr (.inl ⟨_, ‹_›, rfl⟩)))
  · exact .inr (.inr (.inl ⟨_, ‹_›, rfl⟩))
  · exact .inr (.inr (.inr (.inr rfl)))

end Sys2Proof.Machine
end

