-- ==== Sys2Proof/Tests/Slice0.lean ====
section
/-! SUPPORT. The model's own tests. Expected values are those of spec/95_test_vectors.md (its row is named) or
of the examples of spec/40 to 45; `witness_<Name>` shows a state and operands that meet the hypotheses of the
obligation `<Name>`, clause by clause. -/

namespace Sys2Proof.Machine.Tests

open Sys2Proof

/-! ### Small states -/

/-- A unit of two slots, idle, with nothing pending. -/
def bank (a b : Slot) : State := { State.resetOf 2 with slots := [a, b] }

/-- A slot of 65 bits with these listed bytes. -/
def bits65 (st : Memory) : Slot := { len := 65, st := st }

/-- The response a result leaves in `rbuf`. -/
def answer (r : Result) : Option Word :=
  match r with
  | .next t => t.rbuf
  | .fault _ => none
  | .refused _ => none

/-- Slot `n` in a result. -/
def slotAfter (r : Result) (n : SlotNo) : Option Slot :=
  match r with
  | .next t => t.slotAt n
  | .fault _ => none
  | .refused _ => none

/-- The step that executes the word `cw`. -/
def runWord (cw : Word) (s : State) : Result := step (placeCommand cw s)

/-! ### Well-formedness: a term each check refuses -/

theorem test_wellFormed_sa : (Instr.new 2 65).wellFormed 2 = false := by decide
theorem test_wellFormed_sb : (Instr.eq 0 2).wellFormed 2 = false := by decide
theorem test_wellFormed_all_sa :
    [Instr.new 2 0, .len 2, .get 2 0, .put 2 0 0, .set 2 0 0, .clear 2 0 0, .not 2 0 0, .count 2, .eq 2 0,
      .leq 2 0, .lt 2 0].all (fun i => !i.wellFormed 2 && i.wellFormed 3) = true := by decide

/-! ### Decoding, from words written out field by field (30_encoding.md R60, R64) -/

-- OP=0x1 SA=0 SB=0 RSV=0 A=0x000041 B=0
theorem test_decode_new : decode 2 0x1000000041000000 = .ok (.new 0 65) := by decide
-- OP=0x2 SA=1
theorem test_decode_len : decode 2 0x2100000000000000 = .ok (.len 1) := by decide
-- OP=0x3 A=0x000008
theorem test_decode_get : decode 2 0x3000000008000000 = .ok (.get 0 8) := by decide
-- OP=0x4 A=0x000040 B=0xFFFFFF
theorem test_decode_put : decode 2 0x4000000040FFFFFF = .ok (.put 0 64 0xFFFFFF) := by decide
-- OP=0x5 A=0x000005 B=0x00001A
theorem test_decode_set : decode 2 0x500000000500001A = .ok (.set 0 5 26) := by decide
-- OP=0x6 A=0xFFFFFF B=0xFFFFFF
theorem test_decode_clear : decode 2 0x6000FFFFFFFFFFFF = .ok (.clear 0 0xFFFFFF 0xFFFFFF) := by decide
-- OP=0x7 SA=1 A=0 B=0x000045
theorem test_decode_not : decode 2 0x7100000000000045 = .ok (.not 1 0 69) := by decide
-- OP=0x8 SA=1
theorem test_decode_count : decode 2 0x8100000000000000 = .ok (.count 1) := by decide
-- OP=0x9 SA=0 SB=1
theorem test_decode_eq : decode 2 0x9010000000000000 = .ok (.eq 0 1) := by decide
-- OP=0xA SA=1 SB=0
theorem test_decode_leq : decode 2 0xA100000000000000 = .ok (.leq 1 0) := by decide
-- OP=0xB SA=0 SB=1
theorem test_decode_lt : decode 2 0xB010000000000000 = .ok (.lt 0 1) := by decide

theorem test_encode_each :
    [Instr.new 1 0xFFFFFF, .len 0, .get 0 65, .put 0 3 5, .set 0 63 64, .clear 0 6 9, .not 0 4 11, .count 0,
      .eq 0 1, .leq 0 1, .lt 1 0].map encode =
    [0x1100FFFFFF000000, 0x2000000000000000, 0x3000000041000000, 0x4000000003000005, 0x500000003F000040,
      0x6000000006000009, 0x700000000400000B, 0x8000000000000000, 0x9010000000000000, 0xA010000000000000,
      0xB100000000000000] := by decide

-- X1 to X5, X16: reserved opcodes (R67)
theorem test_decode_reserved_opcodes :
    [0x0000000000000000#64, 0xC000000000000000, 0xD000000000000000, 0xF000000000000000, 0xFFFFFFFFFFFFFFFF,
      0xF200000000000000].all (fun cw => decide (decode 2 cw = .error .reservedOpcode)) = true := by decide
-- X6 to X12, X15, N8, N9: nonzero reserved or unused fields (R68)
theorem test_decode_unused_fields :
    [0x3001000001000000#64, 0x3010000001000000, 0x8000000001000000, 0x3000000001000001, 0x9010000000000001,
      0x2000000000000001, 0x5010000001000002, 0x3001000009000000, 0x1000000005000001, 0x2000000001000000].all
      (fun cw => decide (decode 2 cw = .error .nonzeroUnusedField)) = true := by decide
-- X13, X14: slots the unit does not have (R69)
theorem test_decode_missing_slots :
    [0x1200000008000000#64, 0x9020000000000000].all (fun cw => decide (decode 2 cw = .error .noSuchSlot)) = true := by
  decide

theorem test_decodeTableWord : decodeTableWord 64 0x500000000500001A = some (.set 0 5 26) := by decide
theorem test_serialise : serialise 0x1122334455667788 = [0x88, 0x77, 0x66, 0x55, 0x44, 0x33, 0x22, 0x11] := by
  decide

/-! ### Reset, parameters and the protocol -/

theorem test_reset_nslot : State.reset.nslot = 16 := by decide
-- 95_test_vectors.md 1.1
theorem test_nbytes : [0, 1, 64, 65, 128, 129, 6400, 16777215].map nbytes = [0, 8, 8, 16, 16, 24, 800, 2097152] := by
  decide
-- 00_scope.md R7: CAPW = ceil(LEN_MAX / 64), CAPB = 2,097,152, CAPBITS = 16,777,216
theorem test_capacity : Config.capW = nwords Config.lenMax ∧ Config.capB = 2097152 ∧ Config.capBits = 16777216 := by
  decide
-- 60_exceptions.md R205: ILLEGAL wins over OUT_OF_RANGE (vector X15)
theorem test_illegal_wins : answer (runWord 0x3001000009000000 (bank { len := 8, st := [] } Slot.empty)) =
    some 0x3000000000000000 := by decide
-- 70 R234: a word is not accepted while rbuf is Full
theorem test_full_buffer_stalls :
    step { State.reset with rbuf := some 0, host := [.issue 0x2000000000000000] } =
      .next { State.reset with rbuf := some 0, host := [.issue 0x2000000000000000] } := rfl
-- 70 R231: reset abandons the command in flight
theorem test_reset_abandons :
    answer (step { State.reset with inFlight := some 0x2000000000000000, host := [.reset] }) = none := by decide
theorem test_withFetchWord :
    answer (step (State.reset.withFetchWord 64 0x2000000000000000)) = some 0x0000000000000000 := by decide

/-! ### One or two steps of each command -/

-- N4: NEW on a slot in use
theorem test_new_zeroes : slotAfter (runWord 0x1000000041000000 (bank (bits65 [(0, 0xFF), (8, 0x01)]) Slot.empty)) 0 =
    some (bits65 []) := by decide
-- N6: the largest length
theorem test_new_largest : slotAfter (runWord 0x1100FFFFFF000000 (bank Slot.empty Slot.empty)) 1 =
    some { len := 0xFFFFFF, st := [] } := by decide
-- R101's example
theorem test_len : answer (runWord 0x2000000000000000 (bank (bits65 []) Slot.empty)) = some 0x0000000000000041 := by
  decide
-- B7
theorem test_get_last : answer (runWord 0x3000000040000000 (bank (bits65 [(8, 0x01)]) Slot.empty)) = some 1 := by
  decide
-- B10
theorem test_get_out_of_range : answer (runWord 0x3000FFFFFF000000 (bank (bits65 []) Slot.empty)) =
    some 0x1000FFFFFF000041 := by decide
-- B6
theorem test_put_any_nonzero : slotAfter (runWord 0x4000000040FFFFFF (bank (bits65 []) Slot.empty)) 0 =
    some (bits65 [(8, 0x01)]) := by decide
-- B4
theorem test_put_clears_and_answers_old :
    answer (runWord 0x4000000003000000 (bank (bits65 [(0, 0x08)]) Slot.empty)) = some 1 ∧
      slotAfter (runWord 0x4000000003000000 (bank (bits65 [(0, 0x08)]) Slot.empty)) 0 = some (bits65 []) := by
  decide
-- RG4
theorem test_set_many_bytes : slotAfter (runWord 0x500000000500001A (bank (bits65 []) Slot.empty)) 0 =
    some (bits65 [(0, 0xE0), (1, 0xFF), (2, 0xFF), (3, 0x07)]) := by decide
-- RE3
theorem test_set_high_out_of_range : answer (runWord 0x5000000003000041 (bank (bits65 [(0, 0x18)]) Slot.empty)) =
    some 0x1000000041000041 := by decide
-- RG12
theorem test_clear_two_bytes : slotAfter (runWord 0x6000000006000009 (bank (bits65 [(0, 0x30), (1, 0x0F)]) Slot.empty)) 0 =
    some (bits65 [(0, 0x30), (1, 0x0C)]) := by decide
-- RE4
theorem test_clear_invalid_first : answer (runWord 0x600000004600003C (bank (bits65 []) Slot.empty)) =
    some 0x2000000000000000 := by decide
-- RG9
theorem test_not_one_byte : slotAfter (runWord 0x7000000000000007 (bank (bits65 [(0, 0x38)]) Slot.empty)) 0 =
    some (bits65 [(0, 0xC7)]) := by decide
-- RE5
theorem test_not_reports_low : answer (runWord 0x7000000042000046 (bank (bits65 []) Slot.empty)) =
    some 0x1000000042000041 := by decide
-- K10
theorem test_count_three_words :
    answer (runWord 0x8100000000000000 (bank Slot.empty { len := 130, st := [(7, 0x80), (8, 0x01), (16, 0x02)] })) =
      some 3 := by decide
-- Q4, Q12: len=100, {3} or {3, 70} against {3, 70}
theorem test_eq :
    answer (runWord 0x9010000000000000 (bank { len := 100, st := [(0, 0x08)] }
      { len := 100, st := [(0, 0x08), (8, 0x40)] })) = some 0 ∧
    answer (runWord 0x9010000000000000 (bank { len := 100, st := [(0, 0x08), (8, 0x40)] }
      { len := 100, st := [(0, 0x08), (8, 0x40)] })) = some 1 := by decide
-- Q5, Q7
theorem test_leq :
    answer (runWord 0xA010000000000000 (bank { len := 100, st := [(0, 0x08)] }
      { len := 100, st := [(0, 0x08), (8, 0x40)] })) = some 1 ∧
    answer (runWord 0xA100000000000000 (bank { len := 100, st := [(0, 0x08)] }
      { len := 100, st := [(0, 0x08), (8, 0x40)] })) = some 0 := by decide
-- Q6, Q14
theorem test_lt :
    answer (runWord 0xB010000000000000 (bank { len := 100, st := [(0, 0x08)] }
      { len := 100, st := [(0, 0x08), (8, 0x40)] })) = some 1 ∧
    answer (runWord 0xB010000000000000 (bank { len := 100, st := [(0, 0x08), (8, 0x40)] }
      { len := 100, st := [(0, 0x08), (8, 0x40)] })) = some 0 := by decide

/-! ### The assembler (30_encoding.md R72, R73) -/

theorem test_assemble_hex_and_comment :
    assembleLine ['s', 'e', 't', ' ', 's', '0', ',', ' ', '5', ',', ' ', '0', 'x', '1', 'a', ' ', ';', '!'] =
      some [.set 0 5 26] := by decide
theorem test_assemble_refuses_large_number :
    assembleLine ['G', 'E', 'T', ' ', 's', '0', ',', '1', '6', '7', '7', '7', '2', '1', '6'] = none := by decide
theorem test_expand_flip : (Pseudo.flip 3 7).expand = some [.not 3 7 7] := by decide

/-! ### Witnesses of the obligations' hypotheses -/

/-- 65 bits, ones {3, 4, 5, 64}: the last index is 64, the first beyond the end 65. -/
def slotA : Slot := bits65 [(0, 0x38), (8, 0x01)]

/-- 65 bits, ones {2, 3, 4, 5, 64}. -/
def slotB : Slot := bits65 [(0, 0x3C), (8, 0x01)]

/-- Two slots of one length. -/
def stateAB : State := bank slotA slotB

theorem slotA_sound : slotA.Sound := ⟨by decide, padded_of_cells (by decide)⟩
theorem slotB_sound : slotB.Sound := ⟨by decide, padded_of_cells (by decide)⟩
theorem empty_sound : Slot.empty.Sound := sound_empty 0

theorem stateAB_slots : ∀ v ∈ stateAB.slots, v.Sound := by
  intro v hv
  simp only [stateAB, bank, List.mem_cons, List.not_mem_nil, or_false] at hv
  rcases hv with rfl | rfl
  · exact slotA_sound
  · exact slotB_sound

theorem stateAB_inv : stateAB.Inv := ⟨by decide, stateAB_slots, .inl rfl, rfl⟩

/-- `LEN s0`, in flight or issued, in the witnesses below. -/
def lenWord : Word := 0x2000000000000000

/-- The host about to do `moves`. -/
def withHost (moves : List HostMove) : State := { stateAB with host := moves }

/-- `cw` in flight, the host about to do `moves`. -/
def busyWith (cw : Word) (moves : List HostMove) : State := { stateAB with inFlight := some cw, host := moves }

theorem witness_ResetLeavesEverySlotEmptyAndUnitIdle : (withHost [.reset]).host = .reset :: [] := rfl
theorem witness_ResetStateSatisfiesInvariant : Config.legalNslot 1 ∧ Config.legalNslot 16 := by decide
theorem witness_EveryStepKeepsInvariant : stateAB.Inv ∧ step stateAB = .next stateAB := ⟨stateAB_inv, rfl⟩
theorem witness_EveryStepKeepsInvariant_busy :
    State.Inv { stateAB with inFlight := some lenWord, accepted := 1 } ∧
      step { stateAB with inFlight := some lenWord, accepted := 1 } =
        .next { stateAB with rbuf := some 65, accepted := 1 } :=
  ⟨⟨by decide, stateAB_slots, .inr rfl, rfl⟩, rfl⟩
theorem witness_EveryCommandKeepsStorageSound :
    (∀ v ∈ stateAB.slots, v.Sound) ∧ exec (.len 0) stateAB = .next (stateAB.answered 65) :=
  ⟨stateAB_slots, rfl⟩
theorem witness_AcceptAndTakeTransitions :
    ((withHost [.issue lenWord]).host = .issue lenWord :: [] ∧ (withHost [.issue lenWord]).inFlight = none ∧
      (withHost [.issue lenWord]).rbuf = none) ∧
    (State.rbuf { withHost [.take] with rbuf := some 65 } = some 65 ∧ (withHost [.take]).host = .take :: [] ∧
      (withHost [.take]).inFlight = none) ∧
    step (withHost [.issue lenWord]) = .next { stateAB with inFlight := some lenWord, accepted := 1 } ∧
    ((withHost [.wait]).host = .wait :: [] ∧ (withHost [.wait]).inFlight = none) ∧
    (State.rbuf { withHost [.issue lenWord] with rbuf := some 65 } = some 65 ∧
      State.host { withHost [.issue lenWord] with rbuf := some 65 } = .issue lenWord :: []) ∧
    (withHost [.take]).rbuf = none ∧
    (stateAB.host = [] ∧ stateAB.inFlight = none ∧ ∀ rest, stateAB.host ≠ .reset :: rest) :=
  ⟨⟨rfl, rfl, rfl⟩, ⟨rfl, rfl, rfl⟩, rfl, ⟨rfl, rfl⟩, ⟨rfl, rfl⟩, rfl, rfl, rfl, fun _ h => (nomatch h)⟩
theorem witness_OnlyCommandsAndResetChangeSlots :
    slotAfter (step (busyWith 0x4000000040000000 [])) 0 = some (bits65 [(0, 0x38)]) ∧
      State.slotAt (busyWith 0x4000000040000000 []) 0 = some slotA ∧ slotA ≠ bits65 [(0, 0x38)] := by decide
theorem witness_StepRunsTheDecodedCommand :
    ((busyWith lenWord []).inFlight = some lenWord ∧ decode (busyWith lenWord []).nslot lenWord = .ok (.len 0) ∧
      (∀ rest, (busyWith lenWord []).host ≠ .reset :: rest) ∧ (∀ rest, (busyWith lenWord []).host ≠ .wait :: rest)) ∧
    ((busyWith lenWord [.wait]).inFlight = some lenWord ∧
      decode (busyWith lenWord [.wait]).nslot lenWord = .ok (.len 0) ∧
      (busyWith lenWord [.wait]).host = .wait :: []) ∧
    (decode stateAB.nslot (tableWord 64 0x2000000000000000) = .ok (.len 0) ∧
      decode stateAB.nslot (tableWord 64 0xC000000000000000) = .error .reservedOpcode ∧ stateAB.host = []) :=
  ⟨⟨rfl, by decide, fun _ h => (nomatch h), fun _ h => (nomatch h)⟩, ⟨rfl, by decide, rfl⟩, by decide, by decide, rfl⟩
/-- Both for this statement and for the clauses on undecodable words of `StepRunsTheDecodedCommand`. -/
theorem witness_IllegalWordAnswersIllegalCommand :
    ((busyWith 0 [.take]).inFlight = some 0 ∧ decode (busyWith 0 [.take]).nslot 0 = .error .reservedOpcode ∧
      (∀ rest, (busyWith 0 [.take]).host ≠ .reset :: rest) ∧ (∀ rest, (busyWith 0 [.take]).host ≠ .wait :: rest)) ∧
    ((busyWith 0 [.wait]).inFlight = some 0 ∧ decode (busyWith 0 [.wait]).nslot 0 = .error .reservedOpcode ∧
      (busyWith 0 [.wait]).host = .wait :: []) :=
  ⟨⟨rfl, by decide, fun _ h => (nomatch h), fun _ h => (nomatch h)⟩, rfl, by decide, rfl⟩
theorem witness_UntakenResponseStallsTheUnit :
    (∀ m ∈ [HostMove.wait, .issue lenWord], m ≠ .take ∧ m ≠ .reset) ∧
      State.rbuf { withHost [.wait, .issue lenWord] with rbuf := some 65 } = some 65 ∧
      (withHost [.wait, .issue lenWord]).inFlight = none ∧
      State.rbuf { withHost [.take] with rbuf := some 65 } = some 65 ∧ (withHost [.take]).inFlight = none ∧
      (withHost [.take]).host = .take :: [] ∧ (withHost [.reset]).host = .reset :: [] :=
  ⟨by decide, rfl, rfl, rfl, rfl, rfl, rfl⟩
theorem witness_ResetAbandonsCommandsForGood :
    (withHost [.reset, .wait, .take]).host = .reset :: [.wait, .take] ∧
      ∀ cw, HostMove.issue cw ∉ [HostMove.wait, .take] :=
  ⟨rfl, fun _ h => by simp at h⟩
theorem witness_ResponsesComeInCommandOrder :
    (withHost (issueAll [lenWord, 0])).inFlight = none ∧ (withHost (issueAll [lenWord, 0])).rbuf = none ∧
      (withHost (issueAll [lenWord, 0])).host = issueAll [lenWord, 0] := ⟨rfl, rfl, rfl⟩
theorem witness_ToArrayReturnsEveryBit :
    stateAB.rbuf = none ∧ stateAB.inFlight = none ∧ stateAB.slotAt 0 = some slotA ∧ slotA.len.toNat < 66 := by
  decide
theorem witness_DecodeOfEncodeIsTheCommand :
    (Instr.eq 15 15).wellFormed 16 = true ∧ (Instr.not 1 0 0xFFFFFF).wellFormed 2 = true := by decide
theorem witness_EncodeOfDecodeIsTheWord : decode 2 0x4000000040FFFFFF = .ok (.put 0 64 0xFFFFFF) := by decide
theorem witness_IllegalWordsAreExactlyThree :
    cmdOp 0 = 0x0 ∧ 0xC ≤ (cmdOp 0xC000000000000000).toNat ∧
      (opcodeOf (cmdOp 0x3010000001000000) = some .get ∧ Opcode.get.usesSb = false ∧ cmdSb 0x3010000001000000 ≠ 0) ∧
      (opcodeOf (cmdOp 0x9020000000000000) = some .eq ∧ Opcode.eq.usesSb = true ∧
        2 ≤ (cmdSb 0x9020000000000000).toNat) := by decide
theorem witness_CommandOutsideTheBankIsIllegal : (Instr.lt 0 2).wellFormed stateAB.nslot = false := by decide
theorem witness_EveryResponseWordIsLegal :
    exec (.get 0 65) stateAB = .next (stateAB.answered 0x1000000041000041) ∧
      respStatus 0x1000000041000041 = 1 ∧
      executeWord 0xC000000000000000 stateAB = .next (stateAB.answered 0x3000000000000000) ∧
      decode stateAB.nslot 0xC000000000000000 = .error .reservedOpcode ∧
      executeWord 0x5000000040000041 stateAB = .next (stateAB.answered 0x1000000041000041) ∧
      decode stateAB.nslot 0x5000000040000041 = .ok (.set 0 64 65) :=
  ⟨rfl, by decide, rfl, by decide, rfl, by decide⟩
theorem witness_EveryStepKeepsResponsesLegal :
    (∀ w, stateAB.rbuf = some w → LegalResponse w) ∧
      answer (step (busyWith 0x3000000041000000 [])) = some 0x1000000041000041 :=
  ⟨fun _ h => (nomatch h), by decide⟩
theorem witness_WordReadingsAreByteReadings :
    stateAB.slotAt 0 = some slotA ∧ stateAB.slotAt 1 = some slotB ∧ slotA.len = slotB.len ∧
      (false = true ↔ ∀ k, k < nbytes slotA.len.toNat → memRead slotA.st k = memRead slotB.st k) ∧
      (true = true ↔ ∀ k, k < nbytes slotA.len.toNat → memRead slotA.st k &&& ~~~memRead slotB.st k = 0) := by
  decide
theorem witness_OnePassIsTheByteLoop :
    Memory.wf [(0, 0x38), (8, 0x01)] = true ∧ 2097151 + 1 ≤ Config.capB := by decide
theorem witness_SoundSlotIsItsLengthAndBits :
    slotA.Sound ∧ slotA.len = slotA.len ∧ ∀ i, i < slotA.len.toNat → bitAt slotA.st i = bitAt slotA.st i :=
  ⟨slotA_sound, rfl, fun _ _ => rfl⟩
theorem witness_NewMakesAnAllZeroArray : stateAB.slotAt 1 = some slotB := by decide
theorem witness_LenAnswersTheLength : stateAB.slotAt 0 = some slotA := by decide
theorem witness_GetAnswersTheBit :
    stateAB.slotAt 0 = some slotA ∧ (64 : Field24).toNat < slotA.len.toNat := by decide
theorem witness_PutWritesOneBitAndAnswersTheOld :
    stateAB.slotAt 0 = some slotA ∧ slotA.st.wf = true ∧ (64 : Field24).toNat < slotA.len.toNat := by decide
theorem witness_IndexCheckOfGetAndPut :
    stateAB.slotAt 0 = some slotA ∧ slotA.len.toNat ≤ (65 : Field24).toNat ∧
      (64 : Field24).toNat < slotA.len.toNat := by decide
theorem witness_SingleBitLaws :
    stateAB.slotAt 0 = some slotA ∧ slotA.st.wf = true ∧ (64 : Field24).toNat < slotA.len.toNat ∧
      slotA.len.toNat ≤ (65 : Field24).toNat := by decide
theorem witness_SetForcesTheRangeToOne :
    stateAB.slotAt 0 = some slotA ∧ slotA.st.wf = true ∧ (7 : Field24).toNat ≤ (64 : Field24).toNat ∧
      (64 : Field24).toNat < slotA.len.toNat := by decide
theorem witness_ClearForcesTheRangeToZero :
    stateAB.slotAt 0 = some slotA ∧ slotA.st.wf = true ∧ (0 : Field24).toNat ≤ (64 : Field24).toNat ∧
      (64 : Field24).toNat < slotA.len.toNat := by decide
theorem witness_NotFlipsTheRange :
    stateAB.slotAt 1 = some slotB ∧ slotB.st.wf = true ∧ (64 : Field24).toNat ≤ (64 : Field24).toNat ∧
      (64 : Field24).toNat < slotB.len.toNat := by decide
theorem witness_RangeChecksInOrder :
    stateAB.slotAt 0 = some slotA ∧ (4 : Field24).toNat < (5 : Field24).toNat ∧
      ((65 : Field24).toNat ≤ (65 : Field24).toNat ∧ slotA.len.toNat ≤ (65 : Field24).toNat) ∧
      ((64 : Field24).toNat ≤ (65 : Field24).toNat ∧ (64 : Field24).toNat < slotA.len.toNat ∧
        slotA.len.toNat ≤ (65 : Field24).toNat) ∧
      ((64 : Field24).toNat ≤ (64 : Field24).toNat ∧ (64 : Field24).toNat < slotA.len.toNat) := by decide
theorem witness_RepeatedCommands :
    (slotWritten (.len 0) = none ∧ exec (.len 0) stateAB = .next (stateAB.answered 65)) ∧
      (∀ v ∈ stateAB.slots, v.st.wf = true) ∧ (answer (exec (.set 0 9 16) stateAB) = some 0) ∧
      (answer (exec (.not 0 9 16) stateAB) = some 0) ∧ (answer (exec (.put 0 64 0) stateAB) = some 1) ∧
      (answer (exec (.new 0 65) stateAB) = some 0) :=
  ⟨⟨rfl, rfl⟩, by decide, by decide, by decide, by decide, by decide⟩
theorem witness_EmptyArrayBehaviour :
    State.reset.slotAt 0 = some Slot.empty ∧ State.reset.slotAt 15 = some Slot.empty ∧ Slot.empty.len = 0 := by
  decide
theorem witness_CountAnswersTheNumberOfOnes : stateAB.slotAt 0 = some slotA ∧ slotA.Padded :=
  ⟨by decide, slotA_sound.padded⟩
theorem witness_CountLawsOfTheRangedCommands :
    ((bank (bits65 []) slotB).slotAt 0 = some (bits65 []) ∧ (bits65 []).st = memZero ∧
      (0 : Field24).toNat ≤ (64 : Field24).toNat ∧ (64 : Field24).toNat < (bits65 []).len.toNat) ∧
    stateAB.slotAt 0 = some slotA ∧ slotA.Sound ∧ 1 ≤ slotA.len.toNat :=
  ⟨by decide, by decide, slotA_sound, by decide⟩
theorem witness_EqComparesTheBits :
    stateAB.slotAt 0 = some slotA ∧ stateAB.slotAt 1 = some slotB ∧ slotA.Padded ∧ slotB.Padded ∧
      slotA.len = slotB.len := ⟨by decide, by decide, slotA_sound.padded, slotB_sound.padded, rfl⟩
theorem witness_LeqAnswersSubset :
    stateAB.slotAt 1 = some slotB ∧ stateAB.slotAt 0 = some slotA ∧ slotB.Padded ∧ slotA.Padded ∧
      slotB.len = slotA.len := ⟨by decide, by decide, slotB_sound.padded, slotA_sound.padded, rfl⟩
theorem witness_LtAnswersProperSubset :
    stateAB.slotAt 0 = some slotA ∧ stateAB.slotAt 1 = some slotB ∧ slotA.Padded ∧ slotB.Padded ∧
      slotA.len = slotB.len := ⟨by decide, by decide, slotA_sound.padded, slotB_sound.padded, rfl⟩
theorem witness_LengthMismatchAnswersFalse :
    (bank slotA Slot.empty).slotAt 0 = some slotA ∧ (bank slotA Slot.empty).slotAt 1 = some Slot.empty ∧
      slotA.len ≠ Slot.empty.len := by decide
theorem witness_SelfComparison :
    stateAB.slotAt 0 = some slotA ∧ answer (exec (.lt 0 0) stateAB) = some 0 := by decide
theorem witness_OneMoreBitIsAProperSuperset :
    (0 : SlotNo) ≠ 1 ∧ (bank slotA slotA).slotAt 0 = some slotA ∧ (bank slotA slotA).slotAt 1 = some slotA ∧
      slotA.Sound ∧ (63 : Field24).toNat < slotA.len.toNat ∧ bitAt slotA.st 63 = false ∧
      answer (exec (.put 1 63 1) (bank slotA slotA)) = some 0 :=
  ⟨by decide, by decide, by decide, slotA_sound, by decide, by decide, by decide⟩
theorem witness_ErrorResponsesChangeNothing :
    exec (.put 0 65 1) stateAB = .next (stateAB.answered 0x1000000041000041) ∧
      respStatus 0x1000000041000041 ≠ 0 := ⟨rfl, by decide⟩
theorem witness_SixCommandsNeverFailValidation :
    (Instr.count 0).opcode ∈ [Opcode.new, .len, .count, .eq, .leq, .lt] ∧
      (Instr.count 0).wellFormed stateAB.nslot = true ∧ (Instr.count 2).wellFormed stateAB.nslot = false ∧
      answer (exec (.count 0) stateAB) = some 4 ∧ answer (exec (.count 2) stateAB) = some 0x3000000000000000 := by
  decide
theorem witness_WhatEachCommandWrites :
    slotWritten (.len 0) = none ∧ slotWritten (.put 0 64 0) ≠ some 1 ∧ (Instr.put 0 64 0).opcode ≠ .new ∧
      answer (exec (.put 0 64 0) stateAB) = some 1 := by decide
theorem witness_SlotsAreIndependent :
    (∀ n ∈ slotsNamed (.count 0), stateAB.slotAt n = (bank slotA Slot.empty).slotAt n) ∧
      answer (exec (.count 0) stateAB) = some 4 ∧ answer (exec (.count 0) (bank slotA Slot.empty)) = some 4 := by
  decide

end Sys2Proof.Machine.Tests
end

section
/-! Proofs of the family 10_state.md: the reset state meets the invariant (O2), every step and every command
keep it (O3, O4), a sound slot is its length and its bits (O23), and slots are independent (O49). -/

namespace Sys2Proof.Machine

/-! ### The slots stay sound (10_state.md R25, R26) -/

/-- What every command keeps of the bank: the canonical form and INV in each slot. -/
def State.SlotsSound (s : State) : Prop := ∀ v ∈ s.slots, v.Sound

theorem slotsSound_resetOf (n : Nat) : (State.resetOf n).SlotsSound := by
  intro v hv
  rw [List.eq_of_mem_replicate hv]
  exact sound_empty 0

theorem State.SlotsSound.setSlot {s : State} (h : s.SlotsSound) (n : SlotNo) {v : Slot} (hv : v.Sound) :
    (s.setSlot n v).SlotsSound := by
  intro u hu
  obtain hu | rfl := List.mem_or_eq_of_mem_set hu
  · exact h u hu
  · exact hv

theorem exec_slotsSound {i : Instr} {s t : State} (hs : s.SlotsSound) (h : exec i s = .next t) :
    t.SlotsSound := by
  obtain ⟨w, rfl⟩ | ⟨sa, v, v', w, -, hv, hsound, -, -, rfl⟩ := exec_cases h
  · exact hs
  · exact hs.setSlot sa (hsound (hs v (slotAt_mem hv)))

/-- Settles O4: a command only answers, or rewrites one slot soundly. -/
theorem everyCommandKeepsStorageSound : Obligations.EveryCommandKeepsStorageSound :=
  fun _ _ _ => exec_slotsSound

/-! ### The invariant of the machine (10_state.md R26, 70_reset_and_hazards.md R234) -/

/-- The invariant does not speak of the host's pending moves. -/
theorem State.Inv.withHost {s : State} (h : s.Inv) (moves : List HostMove) :
    State.Inv { s with host := moves } :=
  ⟨h.nslot, h.slots, h.oneAtATime, h.everyCommandAnswered⟩

theorem inv_resetOf {n : Nat} (h : Config.legalNslot n) : (State.resetOf n).Inv where
  nslot := by simpa [State.nslot] using h
  slots := slotsSound_resetOf n
  oneAtATime := .inl rfl
  everyCommandAnswered := rfl

/-- Settles O2: the empty array is sound, and 16 is a legal `NSLOT`. -/
theorem resetStateSatisfiesInvariant : Obligations.ResetStateSatisfiesInvariant :=
  ⟨fun _ => inv_resetOf, inv_resetOf (by decide)⟩

theorem State.Inv.resetUnit {s : State} (h : s.Inv) (rest : List HostMove) : (resetUnit s rest).Inv :=
  (inv_resetOf h.nslot).withHost rest

theorem State.Inv.setSlot {s : State} (h : s.Inv) (n : SlotNo) {v : Slot} (hv : v.Sound) :
    (s.setSlot n v).Inv where
  nslot := by simpa using h.nslot
  slots := State.SlotsSound.setSlot h.slots n hv
  oneAtATime := h.oneAtATime
  everyCommandAnswered := h.everyCommandAnswered

/-- A busy unit has `rbuf` Empty, so the command's response takes the place of the command in the count. -/
theorem State.Inv.answered {s : State} {cw : Word} (h : s.Inv) (hbusy : s.inFlight = some cw) (w : Word) :
    (s.answered w).Inv where
  nslot := h.nslot
  slots := h.slots
  oneAtATime := .inl rfl
  everyCommandAnswered := by
    have hempty : s.rbuf = none := h.oneAtATime.resolve_left (by simp [hbusy])
    simpa [hbusy, hempty] using h.everyCommandAnswered

theorem State.Inv.acceptCommand {s : State} (h : s.Inv) (hidle : s.inFlight = none) (hempty : s.rbuf = none)
    (cw : Word) : (acceptCommand cw s).Inv where
  nslot := h.nslot
  slots := h.slots
  oneAtATime := .inr hempty
  everyCommandAnswered := by
    simpa [hidle, hempty] using h.everyCommandAnswered

theorem State.Inv.takeResponse {s : State} {r : Word} (h : s.Inv) (hfull : s.rbuf = some r) :
    (takeResponse r s).Inv where
  nslot := h.nslot
  slots := h.slots
  oneAtATime := .inr rfl
  everyCommandAnswered := by
    simpa [hfull, add_assoc] using h.everyCommandAnswered

theorem State.Inv.exec {i : Instr} {s t : State} {cw : Word} (hs : s.Inv) (hbusy : s.inFlight = some cw)
    (h : exec i s = .next t) : t.Inv := by
  obtain ⟨w, rfl⟩ | ⟨sa, v, v', w, -, hv, hsound, -, -, rfl⟩ := exec_cases h
  · exact hs.answered hbusy w
  · exact (hs.setSlot sa (hsound (hs.slots v (slotAt_mem hv)))).answered hbusy w

theorem State.Inv.executeWord {s t : State} {cw cw' : Word} (hs : s.Inv) (hbusy : s.inFlight = some cw')
    (h : executeWord cw s = .next t) : t.Inv := by
  obtain ⟨i, -, h⟩ | ⟨e, -, rfl⟩ := executeWord_cases h
  · exact hs.exec hbusy h
  · exact hs.answered hbusy _

theorem State.Inv.idleStep {s : State} (hs : s.Inv) (hidle : s.inFlight = none) : (idleStep s).Inv := by
  obtain ⟨cw, rest, -, hempty, e⟩ | ⟨r, rest, -, hfull, e⟩ | ⟨rest, -, e⟩ | ⟨rest, -, e⟩ | e := idleStep_cases s
  all_goals rw [e]
  · exact (hs.withHost rest).acceptCommand hidle hempty cw
  · exact (hs.withHost rest).takeResponse hfull
  · exact hs.resetUnit rest
  · exact hs.withHost rest
  · exact hs

/-- Settles O3: a reset starts over from a legal bank, a busy unit executes its word, an idle unit serves its
host. -/
theorem everyStepKeepsInvariant : Obligations.EveryStepKeepsInvariant := by
  intro s t hs h
  obtain ⟨rest, -, rfl⟩ | ⟨cw, moves, hbusy, h⟩ | ⟨hidle, rfl⟩ := step_cases h
  · exact hs.resetUnit rest
  · exact (hs.withHost moves).executeWord hbusy h
  · exact hs.idleStep hidle

/-! ### A sound slot is its length and its bits (10_state.md R25, R32) -/

/-- Settles O23: at or beyond the common length INV makes the bits of both slots 0, and canonical storages
with the same bits are the same. -/
theorem soundSlotIsItsLengthAndBits : Obligations.SoundSlotIsItsLengthAndBits := by
  rintro ⟨len, st⟩ ⟨len', st'⟩ h h' hlen hbits
  obtain rfl : len = len' := hlen
  have hst : st = st' := memory_ext_bits h.canonical h'.canonical fun i hi => by
    by_cases hl : i < len.toNat
    · exact hbits i hl
    · exact (h.padded i (not_lt.1 hl) hi).trans (h'.padded i (not_lt.1 hl) hi).symm
  rw [hst]

/-! ### Slots are independent (10_state.md R33) -/

/-- Two states hold the same in each slot of a list, an absent slot included. -/
def State.AgreeOn (ns : List SlotNo) (s s' : State) : Prop := ∀ n ∈ ns, s.slotAt n = s'.slotAt n

/-- Two results that the slots of a list cannot tell apart: the same `rbuf`, and the same in those slots. -/
def SameEffect (ns : List SlotNo) (r r' : Result) : Prop :=
  ∃ t t', r = .next t ∧ r' = .next t' ∧ t.rbuf = t'.rbuf ∧ t.AgreeOn ns t'

section
variable {ns : List SlotNo} {s s' : State}

theorem State.AgreeOn.setSlot {n : SlotNo} {u u' : Slot} (h : s.AgreeOn ns s') (hu : s.slotAt n = some u)
    (hu' : s'.slotAt n = some u') (v : Slot) : (s.setSlot n v).AgreeOn ns (s'.setSlot n v) := by
  intro k hk
  rw [setSlot_slotAt v k (slotAt_lt hu), setSlot_slotAt v k (slotAt_lt hu'), h k hk]

theorem sameEffect_respond (h : s.AgreeOn ns s') (status : Status) (p r : Field24) :
    SameEffect ns (respond status p r s) (respond status p r s') :=
  ⟨_, _, rfl, rfl, rfl, h⟩

theorem sameEffect_raiseError (h : s.AgreeOn ns s') (e : CommandError) :
    SameEffect ns (raiseError e s) (raiseError e s') :=
  ⟨_, _, rfl, rfl, rfl, h⟩

/-- The slot a command runs on is one of those agreed on, so both states run the same continuation. -/
theorem sameEffect_withSlot {n : SlotNo} {k k' : Slot → Result} (h : s.AgreeOn ns s') (hn : n ∈ ns)
    (hk : ∀ v, s.slotAt n = some v → s'.slotAt n = some v → SameEffect ns (k v) (k' v)) :
    SameEffect ns (withSlot n s k) (withSlot n s' k') := by
  cases hv : s.slotAt n with
  | some v =>
    have hv' : s'.slotAt n = some v := (h n hn).symm.trans hv
    rw [withSlot_some hv, withSlot_some hv']
    exact hk v hv hv'
  | none =>
    rw [withSlot_none hv, withSlot_none ((h n hn).symm.trans hv)]
    exact sameEffect_raiseError h _

theorem sameEffect_guarded {r r' : Result} (h : s.AgreeOn ns s') (check : Option CommandError)
    (hr : SameEffect ns r r') : SameEffect ns (guarded check s r) (guarded check s' r') := by
  cases check with
  | some e => exact sameEffect_raiseError h e
  | none => exact hr

theorem sameEffect_rangeApply (op : RangeOp) {sa : SlotNo} (low high : Field24) (h : s.AgreeOn ns s')
    (hsa : sa ∈ ns) : SameEffect ns (rangeApply op sa low high s) (rangeApply op sa low high s') :=
  sameEffect_withSlot h hsa fun _ hv hv' =>
    sameEffect_guarded h _ (sameEffect_respond (h.setSlot hv hv' _) _ _ _)

theorem sameEffect_compareSlots (verdict : List (Word × Word) → Bool) {sa sb : SlotNo} (h : s.AgreeOn ns s')
    (hsa : sa ∈ ns) (hsb : sb ∈ ns) :
    SameEffect ns (compareSlots verdict sa sb s) (compareSlots verdict sa sb s') := by
  refine sameEffect_withSlot h hsa fun a _ _ => sameEffect_withSlot h hsb fun b _ _ => ?_
  split
  · exact sameEffect_respond h _ _ _
  · exact sameEffect_respond h _ _ _

end

/-- A command reads only the slots it names: what it answers and leaves there is decided by them. -/
theorem sameEffect_exec (i : Instr) {s s' : State} (h : s.AgreeOn (slotsNamed i) s') :
    SameEffect (slotsNamed i) (exec i s) (exec i s') := by
  cases i with
  | new sa l =>
    exact sameEffect_withSlot h (List.mem_singleton_self sa) fun _ hv hv' =>
      sameEffect_respond (h.setSlot hv hv' _) _ _ _
  | len sa => exact sameEffect_withSlot h (List.mem_singleton_self sa) fun _ _ _ => sameEffect_respond h _ _ _
  | get sa i =>
    exact sameEffect_withSlot h (List.mem_singleton_self sa) fun _ _ _ =>
      sameEffect_guarded h _ (sameEffect_respond h _ _ _)
  | put sa i x =>
    exact sameEffect_withSlot h (List.mem_singleton_self sa) fun _ hv hv' =>
      sameEffect_guarded h _ (sameEffect_respond (h.setSlot hv hv' _) _ _ _)
  | set sa lo hi => exact sameEffect_rangeApply .set lo hi h (List.mem_singleton_self sa)
  | clear sa lo hi => exact sameEffect_rangeApply .clear lo hi h (List.mem_singleton_self sa)
  | not sa lo hi => exact sameEffect_rangeApply .not lo hi h (List.mem_singleton_self sa)
  | count sa => exact sameEffect_withSlot h (List.mem_singleton_self sa) fun _ _ _ => sameEffect_respond h _ _ _
  | eq sa sb =>
    exact sameEffect_compareSlots allEqual h (by simp [slotsNamed]) (by simp [slotsNamed])
  | leq sa sb =>
    exact sameEffect_compareSlots allSubset h (by simp [slotsNamed]) (by simp [slotsNamed])
  | lt sa sb =>
    exact sameEffect_compareSlots (fun ps => allSubset ps && someDiffers ps) h
      (by simp [slotsNamed]) (by simp [slotsNamed])

theorem mem_slotsNamed_of_slotWritten {i : Instr} {n : SlotNo} (h : slotWritten i = some n) :
    n ∈ slotsNamed i := by
  cases i <;> cases h <;> exact List.mem_singleton_self n

/-- A command writes no slot it does not name. -/
theorem exec_slotAt_not_named {i : Instr} {s t : State} (h : exec i s = .next t) {n : SlotNo}
    (hn : n ∉ slotsNamed i) : t.slotAt n = s.slotAt n := by
  obtain ⟨w, rfl⟩ | ⟨sa, v, v', w, hw, -, -, -, -, rfl⟩ := exec_cases h
  · rfl
  · have hne : n ≠ sa := fun e => hn (e ▸ mem_slotsNamed_of_slotWritten hw)
    exact setSlot_slotAt_other s v' hne

/-- Settles O49, from what a command reads (`sameEffect_exec`) and what it writes (`exec_slotAt_not_named`). -/
theorem slotsAreIndependent : Obligations.SlotsAreIndependent := by
  intro i s s' t t' hagree h h'
  obtain ⟨u, u', hu, hu', hrbuf, hslots⟩ := sameEffect_exec i hagree
  obtain rfl : t = u := Host.Outcome.next.inj (h.symm.trans hu)
  obtain rfl : t' = u' := Host.Outcome.next.inj (h'.symm.trans hu')
  exact ⟨hrbuf, hslots, fun _ => exec_slotAt_not_named h⟩

end Sys2Proof.Machine
end

section
/-! Proofs of the family 20_memory.md: bits, bytes and words are one storage (O20, O21, O22), what a command
writes and what issuing it twice does (O48, O36), and one response for each command, in order (O11). -/

namespace Sys2Proof.Machine

/-! ### Bytes of a word (20_memory.md R41, R42) -/

/-- A word is its eight bytes. -/
theorem word_eq_iff_bytes (v v' : Word) :
    v = v' ↔ ∀ j < 8, v.extractLsb' (8 * j) 8 = v'.extractLsb' (8 * j) 8 := by
  refine ⟨fun e _ _ => e ▸ rfl, fun h => BitVec.eq_of_getLsbD_eq fun i hi => ?_⟩
  have hbit := congrArg (fun b : Byte => b.getLsbD (i % 8)) (h (i / 8) (by omega))
  simpa [Nat.mod_lt, Nat.div_add_mod] using hbit

/-- Bit `i` of a word that arrives is bit `i mod 8` of the byte `i div 8` sent. -/
theorem getLsbD_deserialise (bytes : List Byte) {i : Nat} (hi : i < 64) :
    (deserialise bytes).getLsbD i = (bytes[i / 8]?.getD 0).getLsbD (i % 8) := by
  induction bytes generalizing i with
  | nil => simp [deserialise]
  | cons b rest ih =>
    rw [deserialise, BitVec.getLsbD_or, BitVec.getLsbD_setWidth, BitVec.getLsbD_shiftLeft]
    by_cases hlow : i < 8
    · simp [hi, hlow, Nat.div_eq_of_lt hlow, Nat.mod_eq_of_lt hlow]
    · have hdiv : i / 8 = (i - 8) / 8 + 1 := by omega
      have hmod : i % 8 = (i - 8) % 8 := by omega
      rw [ih (by omega), hdiv, hmod, BitVec.getLsbD_of_ge b i (by omega)]
      simp [hi, hlow]

theorem getElem?_serialise (w : Word) {j : Nat} (hj : j < 8) :
    (serialise w)[j]? = some (w.extractLsb' (8 * j) 8) := by
  simp [serialise, hj]

/-- Settles O20, bit by bit. -/
theorem serialisedWordArrives : Obligations.SerialisedWordArrives := by
  refine fun w => ⟨BitVec.eq_of_getLsbD_eq fun i hi => ?_, fun j => getElem?_serialise w⟩
  rw [getLsbD_deserialise _ hi, getElem?_serialise w (by omega)]
  simp [Nat.mod_lt, Nat.div_add_mod]

/-! ### Bits, bytes and words (20_memory.md R40, R41) -/

/-- A bit as the shift and mask of R40 reads it. -/
theorem getLsbD_eq_shift_and_one (b : Byte) (i : Nat) : b.getLsbD i = ((b >>> i) &&& 1 == 1) := by
  have hand : (b >>> i) &&& 1#8 = (BitVec.ofBool (b.getLsbD i)).setWidth 8 := by
    rw [BitVec.and_one_eq_setWidth_ofBool_getLsbD, BitVec.getLsbD_ushiftRight, Nat.add_zero]
  rw [show (1 : Byte) = 1#8 from rfl, hand]
  cases b.getLsbD i <;> rfl

/-- Byte `j` of word `w` is byte `8 w + j` of the slot. -/
theorem extractLsb'_memWord (m : Memory) (w : Nat) {j : Nat} (hj : j < 8) :
    (memWord m w).extractLsb' (8 * j) 8 = memRead m (8 * w + j) := by
  refine BitVec.eq_of_getLsbD_eq fun k hk => ?_
  rw [BitVec.getLsbD_extractLsb', decide_eq_true hk, Bool.true_and, getLsbD_memWord m w (by omega),
    ← bitAt_byte m _ hk]
  congr 1
  omega

/-- Settles O21. -/
theorem bitsBytesAndWordsAgree : Obligations.BitsBytesAndWordsAgree := by
  refine ⟨fun m i => ?_, fun m i => ?_, fun m w j => extractLsb'_memWord m w⟩
  · rw [bitAt_def, getLsbD_eq_shift_and_one]
  · rw [getLsbD_memWord m _ (Nat.mod_lt i (by omega)), Nat.div_add_mod]

/-! ### COUNT and the comparisons read bytes (20_memory.md R41) -/

/-- Blocks of `c` numbers, one after another, are the numbers below their total. -/
theorem forall_blocks_iff {c n : Nat} {P : Nat → Prop} :
    (∀ w < n, ∀ j < c, P (c * w + j)) ↔ ∀ i < c * n, P i := by
  constructor
  · intro h i hi
    have hc : 0 < c := Nat.pos_of_mul_pos_right (Nat.zero_lt_of_lt hi)
    have := h (i / c) (Nat.div_lt_of_lt_mul hi) (i % c) (Nat.mod_lt i hc)
    rwa [Nat.div_add_mod] at this
  · intro h w hw j hj
    refine h _ ?_
    calc c * w + j < c * (w + 1) := by rw [Nat.mul_succ]; omega
      _ ≤ c * n := Nat.mul_le_mul_left c hw

theorem popcount_memRead (m : Memory) (k : Nat) :
    popcount (memRead m k) = (List.range 8).countP fun j => bitAt m (8 * k + j) :=
  List.countP_congr fun j hj => by rw [bitAt_byte m k (List.mem_range.1 hj)]

/-- The population counts of the bytes from `k` on count the bits from `8 k` on. -/
theorem sum_popcount_memRead (m : Memory) (k n : Nat) :
    ((List.range n).map fun j => popcount (memRead m (k + j))).sum =
      (List.range (8 * n)).countP fun i => bitAt m (8 * k + i) := by
  induction n with
  | zero => rfl
  | succ n ih =>
    rw [List.range_succ, List.map_append, List.sum_append, ih, Nat.mul_succ, List.range_add,
      List.countP_append, List.countP_map]
    simp [popcount_memRead, Function.comp_def, Nat.mul_add, Nat.add_assoc]

theorem popcount_memWord_eq_bytes (m : Memory) (w : Nat) :
    popcount (memWord m w) = ((List.range 8).map fun j => popcount (memRead m (8 * w + j))).sum := by
  rw [popcount_memWord, sum_popcount_memRead, ← Nat.mul_assoc]

theorem memWord_eq_iff_bytes (m m' : Memory) (w : Nat) :
    memWord m w = memWord m' w ↔ ∀ j < 8, memRead m (8 * w + j) = memRead m' (8 * w + j) := by
  rw [word_eq_iff_bytes]
  refine forall₂_congr fun j hj => ?_
  rw [extractLsb'_memWord m w hj, extractLsb'_memWord m' w hj]

/-- The bytes of a word's complement; the library's lemma leaves out the top byte. -/
theorem extractLsb'_not_byte (v : Word) {j : Nat} (hj : j < 8) :
    (~~~v).extractLsb' (8 * j) 8 = ~~~(v.extractLsb' (8 * j) 8) := by
  refine BitVec.eq_of_getLsbD_eq fun k hk => ?_
  have hbit : 8 * j + k < 64 := by omega
  simp [hk, hbit]

theorem memWord_subset_iff_bytes (m m' : Memory) (w : Nat) :
    memWord m w &&& ~~~memWord m' w = 0 ↔
      ∀ j < 8, memRead m (8 * w + j) &&& ~~~memRead m' (8 * w + j) = 0 := by
  rw [word_eq_iff_bytes]
  refine forall₂_congr fun j hj => ?_
  rw [BitVec.extractLsb'_and, extractLsb'_not_byte _ hj, extractLsb'_memWord m w hj,
    extractLsb'_memWord m' w hj]
  simp

/-- COUNT's sum, over the bytes of the buffer. -/
theorem slotCount_eq_bytes (v : Slot) :
    slotCount v = ((List.range (nbytes v.len.toNat)).map fun k => popcount (memRead v.st k)).sum := by
  have hbytes := sum_popcount_memRead v.st 0 (nbytes v.len.toNat)
  simp only [Nat.zero_add, Nat.mul_zero] at hbytes
  rw [hbytes, slotCount, bufferWords, sum_popcount, nbytes, ← Nat.mul_assoc]

/-- EQ's verdict, over the bytes of the buffers. -/
theorem allEqual_iff_bytes {a b : Slot} (hlen : a.len = b.len) :
    allEqual ((bufferWords a).zip (bufferWords b)) = true ↔
      ∀ k < nbytes a.len.toNat, memRead a.st k = memRead b.st k := by
  rw [zip_bufferWords hlen, nbytes, ← forall_blocks_iff]
  simp [allEqual, memWord_eq_iff_bytes]

/-- LEQ's verdict, over the bytes of the buffers. -/
theorem allSubset_iff_bytes {a b : Slot} (hlen : a.len = b.len) :
    allSubset ((bufferWords a).zip (bufferWords b)) = true ↔
      ∀ k < nbytes a.len.toNat, memRead a.st k &&& ~~~memRead b.st k = 0 := by
  rw [zip_bufferWords hlen, nbytes, ← forall_blocks_iff]
  simp only [allSubset, List.all_map, List.all_eq_true, List.mem_range, Function.comp_apply, beq_iff_eq,
    memWord_subset_iff_bytes]

theorem exec_count_slot {s : State} {sa : SlotNo} {v : Slot} (hv : s.slotAt sa = some v) :
    exec (.count sa) s = .next (s.answered (responseWord .ok 0 (BitVec.ofNat 24 (slotCount v)))) := by
  rw [exec_count, execCount, withSlot_some hv]
  rfl

/-- Settles O22: a word is its bytes, and the buffer's bytes are those of its words. -/
theorem wordReadingsAreByteReadings : Obligations.WordReadingsAreByteReadings := by
  refine ⟨popcount_memWord_eq_bytes, memWord_eq_iff_bytes, memWord_subset_iff_bytes, ?_, ?_⟩
  · intro s sa v hv
    rw [exec_count_slot hv, slotCount_eq_bytes]
  · intro s sa sb a b equal subset ha hb hlen hequal hsubset
    have heq : allEqual ((bufferWords a).zip (bufferWords b)) = equal :=
      Bool.eq_iff_iff.2 ((allEqual_iff_bytes hlen).trans hequal.symm)
    have hleq : allSubset ((bufferWords a).zip (bufferWords b)) = subset :=
      Bool.eq_iff_iff.2 ((allSubset_iff_bytes hlen).trans hsubset.symm)
    rw [exec_eq, exec_leq, exec_lt]
    refine ⟨?_, ?_, ?_⟩
    · rw [compareSlots_sameLen _ ha hb hlen, heq]
    · rw [compareSlots_sameLen _ ha hb hlen, hleq]
    · rw [compareSlots_sameLen _ ha hb hlen, someDiffers_eq, heq, hleq]

/-! ### What a command writes (20_memory.md R44) -/

/-- A command ends with one response, and leaves the size of the bank, the position in program order and the
host's side as they were. -/
theorem exec_frame {i : Instr} {s t : State} (h : exec i s = .next t) :
    (∃ w, t.endedWith w) ∧ t.nslot = s.nslot ∧ t.accepted = s.accepted ∧ t.taken = s.taken ∧
      t.host = s.host := by
  obtain ⟨w, rfl⟩ | ⟨sa, v, v', w, -, -, -, -, -, rfl⟩ := exec_cases h
  · exact ⟨⟨w, rfl, rfl⟩, rfl, rfl, rfl, rfl⟩
  · exact ⟨⟨w, rfl, rfl⟩, by simp, rfl, rfl, rfl⟩

/-- A command that writes no slot only answers. -/
theorem exec_answers_of_writes_none {i : Instr} {s t : State} (hi : slotWritten i = none)
    (h : exec i s = .next t) : ∃ w, t = s.answered w := by
  obtain hans | ⟨sa, v, v', w, hw, -⟩ := exec_cases h
  · exact hans
  · exact absurd (hi.symm.trans hw) (by simp)

theorem exec_slotAt_not_written {i : Instr} {s t : State} (h : exec i s = .next t) {n : SlotNo}
    (hn : slotWritten i ≠ some n) : t.slotAt n = s.slotAt n := by
  obtain ⟨w, rfl⟩ | ⟨sa, v, v', w, hw, -, -, -, -, rfl⟩ := exec_cases h
  · rfl
  · exact setSlot_slotAt_other s v' fun e => hn (e ▸ hw)

/-- Only NEW writes a length (10_state.md R21). -/
theorem exec_len_of_ne_new {i : Instr} {s t : State} (h : exec i s = .next t) (hi : i.opcode ≠ .new)
    (n : SlotNo) : (t.slotAt n).map Slot.len = (s.slotAt n).map Slot.len := by
  obtain ⟨w, rfl⟩ | ⟨sa, v, v', w, -, hv, -, hlen, -, rfl⟩ := exec_cases h
  · rfl
  · rw [answered_slotAt, setSlot_slotAt v' n (slotAt_lt hv)]
    by_cases e : n = sa
    · rw [if_pos e, e, hv, Option.map_some, Option.map_some, hlen hi]
    · rw [if_neg e]

/-- Settles O48. -/
theorem whatEachCommandWrites : Obligations.WhatEachCommandWrites := by
  intro i s t h
  obtain ⟨-, hnslot, haccepted, htaken, hhost⟩ := exec_frame h
  refine ⟨fun hi => ?_, fun n => exec_slotAt_not_written h, exec_len_of_ne_new h, hnslot, haccepted, htaken,
    hhost⟩
  obtain ⟨w, rfl⟩ := exec_answers_of_writes_none hi h
  rfl

/-! ### Commands issued twice (20_memory.md R47) -/

theorem setSlot_setSlot (s : State) (n : SlotNo) (v v' : Slot) : (s.setSlot n v).setSlot n v' = s.setSlot n v' := by
  simp [State.setSlot]

theorem setSlot_self {s : State} {n : SlotNo} {v : Slot} (h : s.slotAt n = some v) : s.setSlot n v = s := by
  obtain ⟨hlt, hget⟩ := List.getElem?_eq_some_iff.1 h
  rw [State.setSlot, ← hget, List.set_getElem_self]

/-- No command reads `rbuf` or what is in flight, and every command writes both: a second command answers as
if it were the first. -/
theorem exec_answered (i : Instr) (s : State) (w : Word) : exec i (s.answered w) = exec i s := by
  cases i <;> rfl

/-- A command that only answered answers the same again. -/
theorem exec_again_of_answered {i : Instr} {s : State} {w : Word} (h : exec i s = .next (s.answered w)) :
    exec i (s.answered w) = .next (s.answered w) := by
  rw [exec_answered, h]

theorem bitAt_rangeMem_twice (op : RangeOp) {m : Memory} (h : m.wf = true) {low high : Nat} (hle : low ≤ high)
    (hcap : high < Config.capBits) (j : Nat) :
    bitAt (rangeMem op (rangeMem op m low high) low high) j =
      if low ≤ j ∧ j ≤ high then op.applyBit (op.applyBit (bitAt m j)) else bitAt m j := by
  obtain ⟨hw, hbit⟩ := rangeMem_spec op h hle hcap
  rw [(rangeMem_spec op hw hle hcap).2, hbit]
  split_ifs <;> rfl

/-- An operation that makes the same of a bit twice as once is idempotent on the range. -/
theorem rangeMem_idem {op : RangeOp} (hop : ∀ x, op.applyBit (op.applyBit x) = op.applyBit x) {m : Memory}
    (h : m.wf = true) {low high : Nat} (hle : low ≤ high) (hcap : high < Config.capBits) :
    rangeMem op (rangeMem op m low high) low high = rangeMem op m low high := by
  obtain ⟨hw, hbit⟩ := rangeMem_spec op h hle hcap
  refine memory_ext_bits (rangeMem_spec op hw hle hcap).1 hw fun j _ => ?_
  rw [bitAt_rangeMem_twice op h hle hcap, hbit, hop]

/-- Flipping the bits of a range twice restores them. -/
theorem rangeMem_not_not {m : Memory} (h : m.wf = true) {low high : Nat} (hle : low ≤ high)
    (hcap : high < Config.capBits) : rangeMem .not (rangeMem .not m low high) low high = m := by
  have hw := (rangeMem_spec .not h hle hcap).1
  refine memory_ext_bits (rangeMem_spec .not hw hle hcap).1 h fun j _ => ?_
  rw [bitAt_rangeMem_twice .not h hle hcap]
  simp [RangeOp.applyBit]

theorem rangeApply_answered (op : RangeOp) (sa : SlotNo) (low high : Field24) (s : State) (w : Word) :
    rangeApply op sa low high (s.answered w) = rangeApply op sa low high s := rfl

/-- What a ranged command issued twice does: it only answered, and answers the same; or it rewrote the range
twice. -/
theorem rangeApply_twice_cases {op : RangeOp} {sa : SlotNo} {low high : Field24} {s t : State}
    (h : rangeApply op sa low high s = .next t) :
    (∃ w, t = s.answered w ∧ rangeApply op sa low high t = .next t) ∨
      ∃ v, s.slotAt sa = some v ∧ low.toNat ≤ high.toNat ∧
        t = (s.setSlot sa { v with st := rangeMem op v.st low.toNat high.toNat }).answered
          (responseWord .ok 0 0) ∧
        rangeApply op sa low high t = .next ((s.setSlot sa { v with
          st := rangeMem op (rangeMem op v.st low.toNat high.toNat) low.toNat high.toNat }).answered
            (responseWord .ok 0 0)) := by
  obtain ⟨w, rfl⟩ | ⟨v, hv, hle, hlen, rfl⟩ := rangeApply_cases h
  · exact .inl ⟨w, rfl, h⟩
  · have hv' := setSlot_slotAt_same { v with st := rangeMem op v.st low.toNat high.toNat } (slotAt_lt hv)
    refine .inr ⟨v, hv, hle, rfl, ?_⟩
    rw [rangeApply_answered, rangeApply_valid op hv' hle hlen, setSlot_setSlot]

theorem rangeApply_idem {op : RangeOp} (hop : ∀ x, op.applyBit (op.applyBit x) = op.applyBit x) {sa : SlotNo}
    {low high : Field24} {s t : State} (hs : ∀ v ∈ s.slots, v.st.wf = true)
    (h : rangeApply op sa low high s = .next t) : rangeApply op sa low high t = .next t := by
  obtain ⟨w, -, h2⟩ | ⟨v, hv, hle, rfl, h2⟩ := rangeApply_twice_cases h
  · exact h2
  · rw [h2, rangeMem_idem hop (hs v (slotAt_mem hv)) hle (field24_lt_capBits high)]

theorem exec_not_not_slots {sa : SlotNo} {low high : Field24} {s t u : State}
    (hs : ∀ v ∈ s.slots, v.st.wf = true) (h : exec (.not sa low high) s = .next t)
    (h' : exec (.not sa low high) t = .next u) : u.slots = s.slots := by
  rw [exec_not] at h h'
  obtain ⟨w, rfl, h2⟩ | ⟨v, hv, hle, -, h2⟩ := rangeApply_twice_cases h
  · obtain rfl := Host.Outcome.next.inj (h'.symm.trans h2)
    rfl
  · obtain rfl := Host.Outcome.next.inj (h'.symm.trans h2)
    rw [rangeMem_not_not (hs v (slotAt_mem hv)) hle (field24_lt_capBits high), answered_slots, setSlot_self hv]

theorem putBit_putBit {m : Memory} (h : m.wf = true) {i : Nat} (hcap : i < Config.capBits) (x : Field24) :
    putBit (putBit m i x) i x = putBit m i x := by
  obtain ⟨hw, hbit⟩ := putBit_spec h hcap x
  obtain ⟨hw', hbit'⟩ := putBit_spec hw hcap x
  refine memory_ext_bits hw' hw fun j _ => ?_
  rw [hbit', hbit]
  split_ifs <;> rfl

/-- PUT on a valid index of a slot of the bank. -/
theorem exec_put_valid {s : State} {sa : SlotNo} {v : Slot} {i : Field24} (x : Field24)
    (hv : s.slotAt sa = some v) (hi : i.toNat < v.len.toNat) :
    exec (.put sa i x) s = .next ((s.setSlot sa { v with st := putBit v.st i.toNat x }).answered
      (responseWord .ok 0 (boolField (bitAt v.st i.toNat)))) := by
  rw [exec_put, execPut, withSlot_some hv, checkIndex_none.2 hi]
  rfl

/-- PUT issued twice on a valid index: the second writes nothing new and answers the bit the first wrote. -/
theorem exec_put_twice {s t : State} {sa : SlotNo} {v : Slot} {i x : Field24} (hv : s.slotAt sa = some v)
    (hw : v.st.wf = true) (hi : i.toNat < v.len.toNat) (h : exec (.put sa i x) s = .next t) :
    exec (.put sa i x) t = .next (t.answered (responseWord .ok 0 (boolField (decide (x ≠ 0))))) := by
  have hcap := field24_lt_capBits i
  obtain rfl := Host.Outcome.next.inj ((exec_put_valid x hv hi).symm.trans h)
  have hv' := setSlot_slotAt_same { v with st := putBit v.st i.toNat x } (slotAt_lt hv)
  rw [exec_answered, exec_put_valid x hv' hi, setSlot_setSlot, putBit_putBit hw hcap, (putBit_spec hw hcap x).2,
    if_pos rfl]
  rfl

theorem responseWord_ok_boolField (b : Bool) : responseWord .ok 0 (boolField b) = if b then 1 else 0 := by
  cases b <;> rfl

/-- NEW on a slot of the bank. -/
theorem exec_new_slot {s : State} {sa : SlotNo} {v : Slot} (length : Field24) (hv : s.slotAt sa = some v) :
    exec (.new sa length) s =
      .next ((s.setSlot sa { len := length, st := memZero }).answered (responseWord .ok 0 0)) := by
  rw [exec_new, execNew, withSlot_some hv]
  rfl

theorem exec_new_idem {sa : SlotNo} {length : Field24} {s t : State} (h : exec (.new sa length) s = .next t) :
    exec (.new sa length) t = .next t := by
  obtain ⟨v, hv, -⟩ | ⟨-, rfl⟩ := withSlot_cases h
  · obtain rfl := Host.Outcome.next.inj ((exec_new_slot length hv).symm.trans h)
    have hv' := setSlot_slotAt_same { len := length, st := memZero } (slotAt_lt hv)
    rw [exec_answered, exec_new_slot length hv', setSlot_setSlot]
  · exact exec_again_of_answered h

/-- Settles O36, one clause for each kind of command. -/
theorem repeatedCommands : Obligations.RepeatedCommands := by
  refine ⟨?_, ?_, fun s t u sa low high => exec_not_not_slots, ?_, fun s t sa length => exec_new_idem⟩
  · intro i s t hi h
    obtain ⟨w, rfl⟩ := exec_answers_of_writes_none hi h
    exact ⟨rfl, exec_again_of_answered h⟩
  · rintro s t i sa low high (rfl | rfl) hs h
    · exact rangeApply_idem (op := .set) (fun _ => rfl) hs h
    · exact rangeApply_idem (op := .clear) (fun _ => rfl) hs h
  · intro s t u sa i value v hv hw hi h h'
    obtain rfl := Host.Outcome.next.inj ((exec_put_twice hv hw hi h).symm.trans h')
    refine ⟨rfl, ?_⟩
    rw [answered_rbuf, responseWord_ok_boolField]
    simp

/-! ### A command reads the bank only (20_memory.md R49) -/

/-- No command changes an entry of the bank that no slot number reaches. -/
theorem exec_slots_beyond {i : Instr} {s t : State} (h : exec i s = .next t) {k : Nat} (hk : 16 ≤ k) :
    t.slots[k]? = s.slots[k]? := by
  obtain ⟨w, rfl⟩ | ⟨sa, v, v', w, -, -, -, -, -, rfl⟩ := exec_cases h
  · rfl
  · exact List.getElem?_set_ne (by have := sa.isLt; omega)

/-- Banks that hold the same in each numbered slot and beyond the numbers are the same. -/
theorem slots_ext {s t : State} (h : ∀ n, s.slotAt n = t.slotAt n)
    (hbeyond : ∀ k, 16 ≤ k → s.slots[k]? = t.slots[k]?) : s.slots = t.slots := by
  refine List.ext_getElem? fun k => ?_
  by_cases hk : 16 ≤ k
  · exact hbeyond k hk
  · have hn : (BitVec.ofNat 4 k).toNat = k := by simp; omega
    simpa [State.slotAt, hn] using h (BitVec.ofNat 4 k)

/-- Two results with one bank and one response. -/
def SameBankEffect (r r' : Result) : Prop :=
  ∃ t t', r = .next t ∧ r' = .next t' ∧ t.slots = t'.slots ∧ t.rbuf = t'.rbuf

theorem sameBankEffect_exec (i : Instr) {s s' : State} (h : s.slots = s'.slots) :
    SameBankEffect (exec i s) (exec i s') := by
  have hagree : ∀ n, s.slotAt n = s'.slotAt n := fun n => by rw [State.slotAt, State.slotAt, h]
  obtain ⟨t, t', ht, ht', hrbuf, hnamed⟩ := sameEffect_exec i fun n _ => hagree n
  refine ⟨t, t', ht, ht', slots_ext (fun n => ?_) fun k hk => ?_, hrbuf⟩
  · by_cases hn : n ∈ slotsNamed i
    · exact hnamed n hn
    · rw [exec_slotAt_not_named ht hn, exec_slotAt_not_named ht' hn, hagree]
  · rw [exec_slots_beyond ht hk, exec_slots_beyond ht' hk, h]

theorem sameBankEffect_executeWord (cw : Word) {s s' : State} (h : s.slots = s'.slots) :
    SameBankEffect (executeWord cw s) (executeWord cw s') := by
  have hnslot : s.nslot = s'.nslot := by rw [State.nslot, State.nslot, h]
  cases hd : decode s.nslot cw with
  | ok i =>
    rw [executeWord_ok hd, executeWord_ok (hnslot ▸ hd)]
    exact sameBankEffect_exec i h
  | error e =>
    rw [executeWord_error hd, executeWord_error (hnslot ▸ hd)]
    exact ⟨_, _, rfl, rfl, h, rfl⟩

/-- Executing a word ends with one response and leaves program order and the host's side as they were. -/
theorem executeWord_frame {cw : Word} {s t : State} (h : executeWord cw s = .next t) :
    (∃ w, t.endedWith w) ∧ t.accepted = s.accepted ∧ t.taken = s.taken ∧ t.host = s.host := by
  obtain ⟨i, -, h⟩ | ⟨e, -, rfl⟩ := executeWord_cases h
  · obtain ⟨hended, -, hrest⟩ := exec_frame h
    exact ⟨hended, hrest⟩
  · exact ⟨⟨_, rfl, rfl⟩, rfl, rfl, rfl⟩

/-! ### One response for each command, in order (20_memory.md R49, R54) -/

theorem stepN_of_step {s t : State} (n : Nat) (h : step s = .next t) : stepN (n + 1) s = stepN n t := by
  rw [stepN, h]

theorem stepN_add {s t : State} {m : Nat} (n : Nat) (h : stepN m s = .next t) : stepN (m + n) s = stepN n t := by
  induction m generalizing s with
  | zero => cases h; rw [Nat.zero_add]
  | succ m ih =>
    rw [Nat.succ_add]
    cases hs : step s with
    | next u =>
      rw [stepN_of_step _ hs] at h ⊢
      exact ih h
    | fault r => exact nomatch r
    | refused r => rw [stepN, hs] at h; cases h

theorem step_accept {s : State} {cw : Word} {rest : List HostMove} (hidle : s.inFlight = none)
    (hempty : s.rbuf = none) (hhost : s.host = .issue cw :: rest) :
    step s = .next (acceptCommand cw { s with host := rest }) := by
  simp only [step, transition, idleStep, hidle, hempty, hhost]

theorem step_take {s : State} {r : Word} {rest : List HostMove} (hidle : s.inFlight = none)
    (hfull : s.rbuf = some r) (hhost : s.host = .take :: rest) :
    step s = .next (takeResponse r { s with host := rest }) := by
  simp only [step, transition, idleStep, hidle, hfull, hhost]

/-- One transaction (70 R234) of a host that then goes on with `rest`: for any state `s₀` around the bank, the
word executed there gives the response taken and the bank left. -/
theorem stepN_transaction (s₀ : State) {s : State} {cw : Word} {rest : List HostMove}
    (hidle : s.inFlight = none) (hempty : s.rbuf = none) (hhost : s.host = .issue cw :: .take :: rest) :
    ∃ t r u, stepN 3 s = .next t ∧ t.inFlight = none ∧ t.rbuf = none ∧ t.host = rest ∧
      t.accepted = s.accepted + 1 ∧ t.taken = s.taken ++ [r] ∧
      executeWord cw { s₀ with slots := s.slots } = .next u ∧ u.slots = t.slots ∧ u.rbuf = some r := by
  have haccept := step_accept hidle hempty hhost
  obtain ⟨x, u, hx, hu, hslots, hrbuf⟩ := sameBankEffect_executeWord cw
    (s := acceptCommand cw { s with host := .take :: rest }) (s' := { s₀ with slots := s.slots }) rfl
  obtain ⟨⟨r, hfull, hdone⟩, haccepted, htaken, hmoves⟩ := executeWord_frame hx
  have hexec : step (acceptCommand cw { s with host := .take :: rest }) = .next x := by
    rw [step_busy rfl (by simp) (by simp), hx]
  refine ⟨takeResponse r { x with host := rest }, r, u, ?_, hdone, rfl, rfl, haccepted, ?_, hu, hslots.symm,
    hrbuf.symm.trans hfull⟩
  · rw [stepN_of_step 2 haccept, stepN_of_step 1 hexec, stepN_of_step 0 (step_take hdone hfull hmoves), stepN]
  · rw [takeResponse_taken, htaken, acceptCommand_taken]

/-- Response `k` is the answer to command `k`, executed on `bank k` and leaving `bank (k + 1)`. -/
def AnswersInOrder (s₀ : State) (cws rs : List Word) (bank : Nat → List Slot) : Prop :=
  ∀ k cw, cws[k]? = some cw → ∃ r u, rs[k]? = some r ∧
    executeWord cw { s₀ with slots := bank k } = .next u ∧ u.slots = bank (k + 1) ∧ u.rbuf = some r

/-- The banks of a run that starts from `b` and goes on with `bank`. -/
def banksFrom (b : List Slot) (bank : Nat → List Slot) : Nat → List Slot
  | 0 => b
  | k + 1 => bank k

theorem AnswersInOrder.cons {s₀ u : State} {cw r : Word} {cws rs : List Word} {b : List Slot}
    {bank : Nat → List Slot} (hu : executeWord cw { s₀ with slots := b } = .next u) (hslots : u.slots = bank 0)
    (hrbuf : u.rbuf = some r) (h : AnswersInOrder s₀ cws rs bank) :
    AnswersInOrder s₀ (cw :: cws) (r :: rs) (banksFrom b bank) := by
  intro k cw' hk
  cases k with
  | zero =>
    obtain rfl : cw = cw' := by simpa using hk
    exact ⟨r, u, rfl, hu, hslots, hrbuf⟩
  | succ k => exact h k cw' hk

/-- By induction on the words, one transaction for each. -/
theorem stepN_issueAll (s₀ : State) (cws : List Word) {s : State} (hidle : s.inFlight = none)
    (hempty : s.rbuf = none) (hhost : s.host = issueAll cws) :
    ∃ (t : State) (rs : List Word) (bank : Nat → List Slot),
      stepN (3 * cws.length) s = .next t ∧ t.runEnded ∧ t.taken = s.taken ++ rs ∧
      rs.length = cws.length ∧ t.accepted = s.accepted + cws.length ∧
      bank 0 = s.slots ∧ bank cws.length = t.slots ∧ AnswersInOrder s₀ cws rs bank := by
  induction cws generalizing s with
  | nil =>
    exact ⟨s, [], fun _ => s.slots, rfl, ⟨hhost, hempty, hidle⟩, by simp, rfl, rfl, rfl, rfl,
      fun k cw hk => absurd hk (by simp)⟩
  | cons cw cws ih =>
    obtain ⟨s₁, r, u, hrun, hidle₁, hempty₁, hhost₁, haccepted₁, htaken₁, hu, hslots, hrbuf⟩ :=
      stepN_transaction s₀ hidle hempty hhost
    obtain ⟨t, rs, bank, hrest, hended, htaken, hlength, haccepted, hfirst, hlast, hanswers⟩ :=
      ih hidle₁ hempty₁ hhost₁
    refine ⟨t, r :: rs, banksFrom s.slots bank, ?_, hended, ?_, ?_, ?_, rfl, hlast,
      hanswers.cons hu (hslots.trans hfirst.symm) hrbuf⟩
    · rw [List.length_cons, Nat.mul_succ, Nat.add_comm, stepN_add _ hrun, hrest]
    · rw [htaken, htaken₁, List.append_assoc, List.singleton_append]
    · rw [List.length_cons, hlength, List.length_cons]
    · rw [haccepted, haccepted₁, List.length_cons]; omega

/-- Settles O11. -/
theorem responsesComeInCommandOrder : Obligations.ResponsesComeInCommandOrder :=
  fun cws s => stepN_issueAll s cws

end Sys2Proof.Machine
end

section
/-! Proofs of the family 30_encoding.md: the decoder and the encoder agree with each other and with the opcode
map (O13, O14, O15), which words are ILLEGAL (O16), which responses there are, command by command and over the
whole machine (O18, O19, O52), and the assembler's lines (O50). -/

namespace Sys2Proof.Machine

/-! ### What the decoder accepts (30_encoding.md R64, R66) -/

/-- The fields of `cw` are those of a row of the opcode map: its opcode, and 0 in RSV and in each field the row
does not use (R64). -/
structure RowFields (op : Opcode) (cw : Word) : Prop where
  opcode : cmdOp cw = op.code
  rsv : cmdRsv cw = 0
  sb : op.usesSb = false → cmdSb cw = 0
  a : op.usesA = false → cmdA cw = 0
  b : op.usesB = false → cmdB cw = 0

/-- The slots that a row reads from `cw` are slots of the bank (R69). -/
structure RowSlots (n : Nat) (op : Opcode) (cw : Word) : Prop where
  sa : (cmdSa cw).toNat < n
  sb : op.usesSb = true → (cmdSb cw).toNat < n

theorem rowSlots_iff {n : Nat} {op : Opcode} {cw : Word} :
    RowSlots n op cw ↔ (cmdSa cw).toNat < n ∧ (op.usesSb = true → (cmdSb cw).toNat < n) :=
  ⟨fun h => ⟨h.sa, h.sb⟩, fun ⟨hsa, hsb⟩ => ⟨hsa, hsb⟩⟩

theorem RowFields.opcodeOf {op : Opcode} {cw : Word} (h : RowFields op cw) : opcodeOf (cmdOp cw) = some op := by
  rw [h.opcode, opcodeOf_code]

/-- The decoder's checks, in R66's order, are the conditions of the row its opcode names. -/
theorem decode_eq_ok_iff {n : Nat} {cw : Word} {i : Instr} :
    decode n cw = .ok i ↔ ∃ op, RowFields op cw ∧ RowSlots n op cw ∧ i = buildInstr op cw := by
  constructor
  · intro h
    unfold decode at h
    split at h
    · cases h
    · next op hop =>
      split_ifs at h with hrsv hsb ha hb hsa hsb'
      cases h
      exact ⟨op,
        { opcode := (code_of_opcodeOf hop).symm, rsv := not_not.1 hrsv, sb := by simpa using hsb,
          a := by simpa using ha, b := by simpa using hb },
        { sa := not_le.1 hsa, sb := by simpa using hsb' }, rfl⟩
  · rintro ⟨op, hfields, hslots, rfl⟩
    have hsb : ¬ (op.usesSb = false ∧ cmdSb cw ≠ 0) := fun ⟨hu, hne⟩ => hne (hfields.sb hu)
    have ha : ¬ (op.usesA = false ∧ cmdA cw ≠ 0) := fun ⟨hu, hne⟩ => hne (hfields.a hu)
    have hb : ¬ (op.usesB = false ∧ cmdB cw ≠ 0) := fun ⟨hu, hne⟩ => hne (hfields.b hu)
    have hsb' : ¬ (op.usesSb = true ∧ n ≤ (cmdSb cw).toNat) := fun ⟨hu, hle⟩ => not_lt.2 hle (hslots.sb hu)
    simp only [decode, hfields.opcodeOf, if_neg (not_not.2 hfields.rsv), if_neg hsb, if_neg ha, if_neg hb,
      if_neg (not_le.2 hslots.sa), if_neg hsb']

/-- The decoder is total: a word is ILLEGAL, or spells a command. -/
theorem decode_eq_error_iff {n : Nat} {cw : Word} :
    (∃ e, decode n cw = .error e) ↔ ∀ op, RowFields op cw → ¬ RowSlots n op cw := by
  cases hd : decode n cw with
  | ok i =>
    obtain ⟨op, hfields, hslots, -⟩ := decode_eq_ok_iff.1 hd
    exact iff_of_false (fun ⟨_, he⟩ => nomatch he) fun h => h op hfields hslots
  | error e =>
    refine iff_of_true ⟨e, rfl⟩ fun op hfields hslots => ?_
    have hok := decode_eq_ok_iff.2 ⟨op, hfields, hslots, rfl⟩
    rw [hd] at hok
    cases hok

/-! ### Decoding and encoding are inverse (30_encoding.md R64, R66) -/

@[simp] theorem opcode_buildInstr (op : Opcode) (cw : Word) : (buildInstr op cw).opcode = op := by
  cases op <;> rfl

theorem wellFormed_buildInstr {n : Nat} {op : Opcode} {cw : Word} :
    (buildInstr op cw).wellFormed n = true ↔ RowSlots n op cw := by
  rw [rowSlots_iff]
  cases op <;> simp [buildInstr, Instr.wellFormed, Opcode.usesSb]

theorem encodedFields (i : Instr) : Laws.EncodedFields.Statement i := by
  cases i with
  | new sa l => exact Laws.EncodedFields.new sa l
  | len sa => exact Laws.EncodedFields.len sa
  | get sa i => exact Laws.EncodedFields.get sa i
  | put sa i v => exact Laws.EncodedFields.put sa i v
  | set sa l h => exact Laws.EncodedFields.set sa l h
  | clear sa l h => exact Laws.EncodedFields.clear sa l h
  | not sa l h => exact Laws.EncodedFields.not sa l h
  | count sa => exact Laws.EncodedFields.count sa
  | eq sa sb => exact Laws.EncodedFields.eq sa sb
  | leq sa sb => exact Laws.EncodedFields.leq sa sb
  | lt sa sb => exact Laws.EncodedFields.lt sa sb

/-- The encoder writes only the fields of its row. -/
theorem rowFields_encode (i : Instr) : RowFields i.opcode (encode i) := by
  obtain ⟨hop, hrsv, hsb, ha, hb⟩ := encodedFields i
  exact ⟨hop, hrsv, hsb, ha, hb⟩

/-- The operands are read back from where the encoder put them. -/
theorem buildInstr_encode (i : Instr) : buildInstr i.opcode (encode i) = i := by
  cases i <;> simp [buildInstr, encode, Instr.opcode]

/-- The encoder packs the fields its row uses, each read from where it stands, and 0 elsewhere. -/
theorem encode_buildInstr_eq_packCmd (op : Opcode) (cw : Word) :
    encode (buildInstr op cw) = packCmd op.code (cmdSa cw) (if op.usesSb then cmdSb cw else 0)
      (if op.usesA then cmdA cw else 0) (if op.usesB then cmdB cw else 0) := by
  cases op <;> rfl

theorem RowFields.encode_buildInstr {op : Opcode} {cw : Word} (h : RowFields op cw) :
    encode (buildInstr op cw) = cw := by
  have unused : ∀ {k : Nat} {u : Bool} {x : BitVec k}, (u = false → x = 0) → (if u then x else 0) = x := by
    intro k u x hx
    cases u with
    | true => rfl
    | false => exact (hx rfl).symm
  rw [encode_buildInstr_eq_packCmd, unused h.sb, unused h.a, unused h.b, ← h.opcode, packCmd_fields cw h.rsv]

/-- Settles O13: the encoded word has the fields of its row, and its operands are the command's. -/
theorem decodeOfEncodeIsTheCommand : Obligations.DecodeOfEncodeIsTheCommand := by
  intro n i hwf
  have hslots : RowSlots n i.opcode (encode i) := by rwa [← wellFormed_buildInstr, buildInstr_encode]
  exact decode_eq_ok_iff.2 ⟨i.opcode, rowFields_encode i, hslots, (buildInstr_encode i).symm⟩

/-- Settles O14: a word with the fields of a row is what the encoder packs of them. -/
theorem encodeOfDecodeIsTheWord : Obligations.EncodeOfDecodeIsTheWord := by
  intro n cw i h
  obtain ⟨op, hfields, hslots, rfl⟩ := decode_eq_ok_iff.1 h
  exact ⟨hfields.encode_buildInstr, wellFormed_buildInstr.2 hslots⟩

/-! ### The match and mask columns (30_encoding.md R64) -/

/-- Two words with the same six fields are the same. -/
theorem word_eq_iff_fields (v v' : Word) :
    v = v' ↔ cmdOp v = cmdOp v' ∧ cmdSa v = cmdSa v' ∧ cmdSb v = cmdSb v' ∧ cmdRsv v = cmdRsv v' ∧
      cmdA v = cmdA v' ∧ cmdB v = cmdB v' := by
  refine ⟨fun h => h ▸ ⟨rfl, rfl, rfl, rfl, rfl, rfl⟩, fun ⟨hop, hsa, hsb, hrsv, ha, hb⟩ => ?_⟩
  have bit : ∀ {k lo : Nat}, v.extractLsb' lo k = v'.extractLsb' lo k → ∀ i, lo ≤ i → i < lo + k →
      v.getLsbD i = v'.getLsbD i := by
    intro k lo h i hlo hi
    have hget := congrArg (fun x : BitVec k => x.getLsbD (i - lo)) h
    simpa [show i - lo < k by omega, show lo + (i - lo) = i by omega] using hget
  refine BitVec.eq_of_getLsbD_eq fun i hi => ?_
  obtain h | h | h | h | h | h : i < 24 ∨ (24 ≤ i ∧ i < 48) ∨ (48 ≤ i ∧ i < 52) ∨ (52 ≤ i ∧ i < 56) ∨
      (56 ≤ i ∧ i < 60) ∨ 60 ≤ i := by omega
  · exact bit hb i (Nat.zero_le i) (by omega)
  · exact bit ha i h.1 h.2
  · exact bit hrsv i h.1 h.2
  · exact bit hsb i h.1 h.2
  · exact bit hsa i h.1 h.2
  · exact bit hop i h (by omega)

/-- The mask of a field: all of it where the row requires it 0, none of it where the row uses it. -/
def fieldMask (k : Nat) (used : Bool) : BitVec k := if used then 0 else BitVec.allOnes k

theorem and_fieldMask_eq_zero_iff {k : Nat} {used : Bool} {x : BitVec k} :
    x &&& fieldMask k used = 0 ↔ (used = false → x = 0) := by
  cases used <;> simp [fieldMask]

/-- The fields of a masked word. -/
theorem fields_and (v m : Word) :
    cmdOp (v &&& m) = cmdOp v &&& cmdOp m ∧ cmdSa (v &&& m) = cmdSa v &&& cmdSa m ∧
      cmdSb (v &&& m) = cmdSb v &&& cmdSb m ∧ cmdRsv (v &&& m) = cmdRsv v &&& cmdRsv m ∧
      cmdA (v &&& m) = cmdA v &&& cmdA m ∧ cmdB (v &&& m) = cmdB v &&& cmdB m :=
  ⟨BitVec.extractLsb'_and, BitVec.extractLsb'_and, BitVec.extractLsb'_and, BitVec.extractLsb'_and,
    BitVec.extractLsb'_and, BitVec.extractLsb'_and⟩

/-- The `mask` column, field by field: every row uses SA, none uses RSV. -/
theorem fields_maskWord (op : Opcode) :
    cmdOp op.maskWord = BitVec.allOnes 4 ∧ cmdSa op.maskWord = fieldMask 4 true ∧
      cmdSb op.maskWord = fieldMask 4 op.usesSb ∧ cmdRsv op.maskWord = fieldMask 4 false ∧
      cmdA op.maskWord = fieldMask 24 op.usesA ∧ cmdB op.maskWord = fieldMask 24 op.usesB := by
  cases op <;> decide

/-- The `match` column, field by field. -/
theorem fields_matchWord (op : Opcode) :
    cmdOp op.matchWord = op.code ∧ cmdSa op.matchWord = 0 ∧ cmdSb op.matchWord = 0 ∧
      cmdRsv op.matchWord = 0 ∧ cmdA op.matchWord = 0 ∧ cmdB op.matchWord = 0 := by
  cases op <;> decide

/-- A row's match and mask say what its fields say. -/
theorem and_maskWord_eq_matchWord_iff {op : Opcode} {cw : Word} :
    cw &&& op.maskWord = op.matchWord ↔ RowFields op cw := by
  obtain ⟨aop, asa, asb, arsv, aa, ab⟩ := fields_and cw op.maskWord
  obtain ⟨mop, msa, msb, mrsv, ma, mb⟩ := fields_maskWord op
  obtain ⟨hop, hsa, hsb, hrsv, ha, hb⟩ := fields_matchWord op
  rw [word_eq_iff_fields, aop, asa, asb, arsv, aa, ab, mop, msa, msb, mrsv, ma, mb, hop, hsa, hsb, hrsv, ha, hb]
  simp only [BitVec.and_allOnes, and_fieldMask_eq_zero_iff, Bool.true_eq_false, false_imp_iff, true_imp_iff,
    true_and]
  exact ⟨fun ⟨ho, hs, hr, h1, h2⟩ => ⟨ho, hr, hs, h1, h2⟩, fun h => ⟨h.opcode, h.sb, h.rsv, h.a, h.b⟩⟩

/-- Settles O15: match and mask are the fields of the row, and a word decodes to one row only. -/
theorem decodeAgreesWithMatchAndMask : Obligations.DecodeAgreesWithMatchAndMask := by
  intro n cw op
  rw [and_maskWord_eq_matchWord_iff, decode_eq_ok_iff]
  constructor
  · rintro ⟨op', hfields, hslots, hbuild⟩
    obtain rfl : op = op' := by simpa using congrArg Instr.opcode hbuild
    exact ⟨hfields, hslots.sa, hslots.sb⟩
  · rintro ⟨hfields, hsa, hsb⟩
    exact ⟨op, hfields, ⟨hsa, hsb⟩, rfl⟩

/-! ### The ILLEGAL words (30_encoding.md R67, R68, R69) -/

/-- R68: a field that a row requires 0 is not. -/
theorem not_rowFields_iff {op : Opcode} {cw : Word} (hop : cmdOp cw = op.code) :
    ¬ RowFields op cw ↔ cmdRsv cw ≠ 0 ∨ (op.usesSb = false ∧ cmdSb cw ≠ 0) ∨
      (op.usesA = false ∧ cmdA cw ≠ 0) ∨ (op.usesB = false ∧ cmdB cw ≠ 0) := by
  have hfields : RowFields op cw ↔ cmdRsv cw = 0 ∧ (op.usesSb = false → cmdSb cw = 0) ∧
      (op.usesA = false → cmdA cw = 0) ∧ (op.usesB = false → cmdB cw = 0) :=
    ⟨fun h => ⟨h.rsv, h.sb, h.a, h.b⟩, fun ⟨hr, hs, h1, h2⟩ => ⟨hop, hr, hs, h1, h2⟩⟩
  rw [hfields]
  simp only [not_and_or, Classical.not_imp, ne_eq]

/-- R69: a slot that a row names is not in the bank. -/
theorem not_rowSlots_iff {n : Nat} {op : Opcode} {cw : Word} :
    ¬ RowSlots n op cw ↔ n ≤ (cmdSa cw).toNat ∨ (op.usesSb = true ∧ n ≤ (cmdSb cw).toNat) := by
  simp only [rowSlots_iff, not_and_or, Classical.not_imp, not_lt]

/-- Settles O16: the opcode names no row, or it names one and that row's fields or slots fail. -/
theorem illegalWordsAreExactlyThree : Obligations.IllegalWordsAreExactlyThree := by
  intro n cw
  rw [decode_eq_error_iff, ← opcodeOf_eq_none]
  cases hop : opcodeOf (cmdOp cw) with
  | none =>
    refine iff_of_true (fun op hfields _ => ?_) (.inl rfl)
    rw [hfields.opcodeOf] at hop
    cases hop
  | some op =>
    have hcode : cmdOp cw = op.code := (code_of_opcodeOf hop).symm
    have honly : ∀ op', RowFields op' cw → op' = op := fun op' hfields =>
      Option.some.inj (hfields.opcodeOf.symm.trans hop)
    simp only [Option.some.injEq, exists_eq_left', reduceCtorEq, false_or]
    rw [← not_rowFields_iff hcode, ← not_rowSlots_iff, ← not_and_or]
    exact ⟨fun h ⟨hf, hs⟩ => h op hf hs, fun h op' hf hs => by
      obtain rfl := honly op' hf
      exact h ⟨hf, hs⟩⟩

/-! ### The shape of every command -/

/-- A command names one slot, or the two of a comparison (30_encoding.md R61, R64). -/
theorem slotsNamed_cases (i : Instr) :
    (∃ sa, slotsNamed i = [sa]) ∨ ∃ sa sb, slotsNamed i = [sa, sb] := by
  cases i <;> simp [slotsNamed]

theorem wellFormed_iff {n : Nat} {i : Instr} :
    i.wellFormed n = true ↔ ∀ sa ∈ slotsNamed i, sa.toNat < n := by
  cases i <;> simp [Instr.wellFormed, slotsNamed]

/-- An error that a validation against the length `len` ends in: INVALID_RANGE, or OUT_OF_RANGE with the first of
the indices that is not below `len` (41_validation.md R110, R111). -/
def CommandError.Reports (e : CommandError) (len : Field24) (indices : List Field24) : Prop :=
  e = .invalidRange ∨
    ∃ k, e = .outOfRange k len ∧ indices.find? (fun k => decide (len.toNat ≤ k.toNat)) = some k

theorem checkIndex_reports {len index : Field24} {e : CommandError} (h : checkIndex len index = some e) :
    e.Reports len [index] := by
  unfold checkIndex at h
  split_ifs at h with hlen
  cases h
  exact .inr ⟨index, rfl, by simp [hlen]⟩

theorem checkRange_reports {len low high : Field24} {e : CommandError} (h : checkRange len low high = some e) :
    e.Reports len [low, high] := by
  unfold checkRange at h
  split_ifs at h with hle hlow hhigh
  · cases h; exact .inl rfl
  · cases h; exact .inr ⟨low, rfl, by simp [hlow]⟩
  · cases h; exact .inr ⟨high, rfl, by simp [hlow, hhigh]⟩

/-- A command of one slot runs on it, validates its indices against the length, and answers OK if they pass. -/
theorem exec_oneSlot {i : Instr} {sa : SlotNo} (h : slotsNamed i = [sa]) (s : State) :
    ∃ (check : Field24 → Option CommandError) (r : Slot → Field24) (u : Slot → State),
      (∀ len e, check len = some e → e.Reports len (indexOperands i)) ∧
      exec i s = withSlot sa s fun v => guarded (check v.len) s (respond .ok 0 (r v) (u v)) := by
  have unchecked : ∀ (len : Field24) (e : CommandError), (none : Option CommandError) = some e →
      e.Reports len (indexOperands i) := fun _ _ he => nomatch he
  cases i with
  | new _ _ => cases h; exact ⟨fun _ => none, _, _, unchecked, rfl⟩
  | len _ => cases h; exact ⟨fun _ => none, _, _, unchecked, rfl⟩
  | get _ index => cases h; exact ⟨fun len => checkIndex len index, _, _, fun _ _ => checkIndex_reports, rfl⟩
  | put _ index _ => cases h; exact ⟨fun len => checkIndex len index, _, _, fun _ _ => checkIndex_reports, rfl⟩
  | set _ lo hi => cases h; exact ⟨fun len => checkRange len lo hi, _, _, fun _ _ => checkRange_reports, rfl⟩
  | clear _ lo hi => cases h; exact ⟨fun len => checkRange len lo hi, _, _, fun _ _ => checkRange_reports, rfl⟩
  | not _ lo hi => cases h; exact ⟨fun len => checkRange len lo hi, _, _, fun _ _ => checkRange_reports, rfl⟩
  | count _ => cases h; exact ⟨fun _ => none, _, _, unchecked, rfl⟩
  | eq _ _ => cases h
  | leq _ _ => cases h
  | lt _ _ => cases h

/-- A command of two slots is a comparison of them. -/
theorem exec_twoSlots {i : Instr} {sa sb : SlotNo} (h : slotsNamed i = [sa, sb]) (s : State) :
    ∃ verdict, exec i s = compareSlots verdict sa sb s := by
  cases i with
  | eq _ _ => cases h; exact ⟨_, exec_eq sa sb s⟩
  | leq _ _ => cases h; exact ⟨_, exec_leq sa sb s⟩
  | lt _ _ => cases h; exact ⟨_, exec_lt sa sb s⟩
  | _ => cases h

/-! ### A command that names a slot outside the bank (30_encoding.md R69, log entry 7) -/

theorem illegalCommand_response : CommandError.illegalCommand.response = 0x3000000000000000#64 := rfl

theorem compareSlots_absent (verdict : List (Word × Word) → Bool) {sa sb : SlotNo} {s : State}
    (h : s.slotAt sa = none ∨ s.slotAt sb = none) :
    compareSlots verdict sa sb s = raiseError .illegalCommand s := by
  cases ha : s.slotAt sa with
  | none => exact withSlot_none ha _
  | some a =>
    rw [compareSlots, withSlot_some ha]
    exact withSlot_none (h.resolve_left (by simp [ha])) _

theorem exec_not_wellFormed {i : Instr} {s : State} (h : i.wellFormed s.nslot = false) :
    exec i s = .next (s.answered CommandError.illegalCommand.response) := by
  have habsent : ∃ n ∈ slotsNamed i, s.slotAt n = none := by
    by_contra hall
    simp only [slotAt_eq_none, not_exists, not_and, not_le] at hall
    exact Bool.false_ne_true (h.symm.trans (wellFormed_iff.2 hall))
  obtain ⟨sa, hnamed⟩ | ⟨sa, sb, hnamed⟩ := slotsNamed_cases i
  · obtain ⟨check, r, u, -, he⟩ := exec_oneSlot hnamed s
    rw [he]
    exact withSlot_none (by simpa [hnamed] using habsent) _
  · obtain ⟨verdict, he⟩ := exec_twoSlots hnamed s
    rw [he]
    exact compareSlots_absent verdict (by simpa [hnamed] using habsent)

/-- Settles O18. -/
theorem commandOutsideTheBankIsIllegal : Obligations.CommandOutsideTheBankIsIllegal := by
  intro i s h
  rw [exec_not_wellFormed h, illegalCommand_response]
  rfl

/-! ### The responses a command can end in (30_encoding.md R62, R63) -/

/-- The response words of command `i` in state `s`. -/
inductive Answers (i : Instr) (s : State) : Word → Prop
  | ok (r : Field24) (hwf : i.wellFormed s.nslot = true) : Answers i s (responseWord .ok 0 r)
  | refused {sa : SlotNo} {v : Slot} {e : CommandError} (hwf : i.wellFormed s.nslot = true)
      (hnamed : slotsNamed i = [sa]) (hv : s.slotAt sa = some v) (he : e.Reports v.len (indexOperands i)) :
      Answers i s e.response
  | illegal (hwf : i.wellFormed s.nslot = false) : Answers i s CommandError.illegalCommand.response

theorem exec_answers {i : Instr} {s t : State} (h : exec i s = .next t) :
    ∃ w, t.rbuf = some w ∧ Answers i s w := by
  cases hwf : i.wellFormed s.nslot with
  | false =>
    obtain rfl := Host.Outcome.next.inj ((exec_not_wellFormed hwf).symm.trans h)
    exact ⟨_, rfl, .illegal hwf⟩
  | true =>
    have hin : ∀ n ∈ slotsNamed i, ∃ v, s.slotAt n = some v := fun n hn =>
      Option.isSome_iff_exists.1 (by simpa [slotAt_isSome] using wellFormed_iff.1 hwf n hn)
    obtain ⟨sa, hnamed⟩ | ⟨sa, sb, hnamed⟩ := slotsNamed_cases i
    · obtain ⟨check, r, u, hcheck, hexec⟩ := exec_oneSlot hnamed s
      obtain ⟨v, hv⟩ := hin sa (by simp [hnamed])
      rw [hexec, withSlot_some hv] at h
      obtain ⟨e, he, rfl⟩ | ⟨-, h⟩ := guarded_cases h
      · exact ⟨_, rfl, .refused hwf hnamed hv (hcheck _ e he)⟩
      · cases h
        exact ⟨_, rfl, .ok (r v) hwf⟩
    · obtain ⟨verdict, hexec⟩ := exec_twoSlots hnamed s
      obtain ⟨a, ha⟩ := hin sa (by simp [hnamed])
      obtain ⟨b, hb⟩ := hin sb (by simp [hnamed])
      rw [hexec] at h
      by_cases hlen : a.len = b.len
      · obtain rfl := Host.Outcome.next.inj ((compareSlots_sameLen verdict ha hb hlen).symm.trans h)
        exact ⟨_, rfl, .ok _ hwf⟩
      · obtain rfl := Host.Outcome.next.inj ((compareSlots_mismatch verdict ha hb hlen).symm.trans h)
        exact ⟨_, rfl, .ok 0 hwf⟩

theorem legalResponse_ok (r : Field24) : LegalResponse (responseWord .ok 0 r) where
  reserved := respReserved_responseWord .ok 0 r
  status := by rw [respStatus_responseWord]; decide
  p _ := respP_responseWord .ok 0 r
  r h := by rw [respStatus_responseWord] at h; exact absurd h (by decide)

theorem legalResponse_error (e : CommandError) : LegalResponse e.response := by
  cases e with
  | outOfRange index length => constructor <;> simp [CommandError.response, Status.code]
  | invalidRange => constructor <;> simp [CommandError.response, Status.code]
  | illegalCommand => constructor <;> simp [CommandError.response, Status.code]

section
variable {i : Instr} {s : State} {w : Word}

theorem Answers.legalResponse (h : Answers i s w) : LegalResponse w := by
  cases h with
  | ok r _ => exact legalResponse_ok r
  | refused _ _ _ _ => exact legalResponse_error _
  | illegal _ => exact legalResponse_error _

/-- A command whose slots are all in the bank never ends in ILLEGAL_COMMAND. -/
theorem Answers.status_ne_illegal (h : Answers i s w) (hwf : i.wellFormed s.nslot = true) : respStatus w ≠ 3 := by
  cases h with
  | ok r _ => simp [Status.code]
  | refused _ _ _ he =>
    obtain rfl | ⟨k, rfl, -⟩ := he
    · simp [CommandError.response, Status.code]
    · simp [CommandError.response, Status.code]
  | illegal hwf' => simp [hwf] at hwf'

/-- On OUT_OF_RANGE, P is the offending index and R the length (R62). -/
theorem Answers.outOfRange (h : Answers i s w) (hst : respStatus w = 1) :
    ∃ sa v, slotsNamed i = [sa] ∧ s.slotAt sa = some v ∧ respR w = v.len ∧
      (indexOperands i).find? (fun k => decide (v.len.toNat ≤ k.toNat)) = some (respP w) := by
  cases h with
  | ok r _ => simp [Status.code] at hst
  | refused _ hnamed hv he =>
    obtain rfl | ⟨k, rfl, hfind⟩ := he
    · simp [CommandError.response, Status.code] at hst
    · exact ⟨_, _, hnamed, hv, respR_responseWord _ _ _, by
        rw [hfind, CommandError.response, respP_responseWord]⟩
  | illegal _ => simp [CommandError.response, Status.code] at hst

end

/-- Settles O19: what a command can answer, and a decoded command names only slots of the bank. -/
theorem everyResponseWordIsLegal : Obligations.EveryResponseWordIsLegal := by
  constructor
  · intro cw s t h
    cases hd : decode s.nslot cw with
    | ok i =>
      rw [executeWord_ok hd] at h
      obtain ⟨w, hw, hans⟩ := exec_answers h
      have hst : respStatus w ≠ 3 := hans.status_ne_illegal (encodeOfDecodeIsTheWord _ _ _ hd).2
      refine ⟨w, hw, hans.legalResponse, iff_of_false hst (fun ⟨_, he⟩ => nomatch he), fun i' hi => ?_⟩
      cases hi
      exact h
    | error e =>
      rw [executeWord_error hd] at h
      cases h
      exact ⟨_, rfl, legalResponse_error _, iff_of_true (respStatus_responseWord _ _ _) ⟨e, rfl⟩,
        fun _ hi => nomatch hi⟩
  · intro i s t h
    obtain ⟨w, hw, hans⟩ := exec_answers h
    exact ⟨w, hw, hans.legalResponse, hans.outOfRange⟩

/-! ### The response over the whole machine (30_encoding.md R62, R63) -/

/-- The response in `rbuf`, if there is one, is legal. -/
def State.ResponseLegal (s : State) : Prop := ∀ w, s.rbuf = some w → LegalResponse w

theorem responseLegal_of_empty {s : State} (h : s.rbuf = none) : s.ResponseLegal := by
  intro w hw
  rw [h] at hw
  cases hw

theorem executeWord_responseLegal {cw : Word} {s t : State} (h : executeWord cw s = .next t) :
    t.ResponseLegal := by
  obtain ⟨w, hw, hlegal, -⟩ := everyResponseWordIsLegal.1 cw s t h
  intro w' hw'
  rw [hw] at hw'
  cases hw'
  exact hlegal

theorem State.ResponseLegal.idleStep {s : State} (hs : s.ResponseLegal) : (idleStep s).ResponseLegal := by
  obtain ⟨cw, rest, -, hempty, e⟩ | ⟨r, rest, -, -, e⟩ | ⟨rest, -, e⟩ | ⟨rest, -, e⟩ | e := idleStep_cases s
  all_goals rw [e]
  · exact responseLegal_of_empty hempty
  · exact responseLegal_of_empty rfl
  · exact responseLegal_of_empty rfl
  · exact hs
  · exact hs

/-- Settles O52: a reset and an idle unit bring no new response, and a word's response is legal (O19). -/
theorem everyStepKeepsResponsesLegal : Obligations.EveryStepKeepsResponsesLegal := by
  refine ⟨resetOf_rbuf, fun s t hs h => ?_⟩
  obtain ⟨rest, -, rfl⟩ | ⟨cw, moves, -, h⟩ | ⟨-, rfl⟩ := step_cases h
  · exact responseLegal_of_empty rfl
  · exact executeWord_responseLegal h
  · exact State.ResponseLegal.idleStep hs

/-! ### The assembler (30_encoding.md R72, R73) -/

/-- Settles O50: each line is assembled by evaluation. -/
theorem assemblerSpellsCommands : Obligations.AssemblerSpellsCommands :=
  ⟨by decide, by decide, by decide, by decide, by decide, by decide, by decide, by decide⟩

end Sys2Proof.Machine
end

section
/-! Proofs of the family 40_construction.md: NEW (O26), LEN (O27), every command on an empty array (O37), and six
words of the rules' examples (O17). -/

namespace Sys2Proof.Machine

/-! ### NEW and LEN (40_construction.md R100, R101) -/

/-- The frame of a command that rewrites one slot and answers. -/
theorem sameOutside_setSlot_answered (s : State) (sa : SlotNo) (v : Slot) (w : Word) :
    s.SameOutside ((s.setSlot sa v).answered w) sa where
  nslot := setSlot_nslot s sa v
  others _ hne := setSlot_slotAt_other s v hne
  accepted := rfl
  taken := rfl
  host := rfl

/-- Settles O26: NEW puts all-zero storage of the new length in its slot, and only there. -/
theorem newMakesAnAllZeroArray : Obligations.NewMakesAnAllZeroArray := by
  intro s sa length v hv
  exact ⟨_, { len := length, st := memZero }, exec_new_slot length hv, ⟨rfl, rfl⟩,
    setSlot_slotAt_same _ (slotAt_lt hv), rfl, memRead_zero, sound_empty length,
    sameOutside_setSlot_answered s sa _ _⟩

/-- LEN on a slot of the bank. -/
theorem exec_len_slot {s : State} {sa : SlotNo} {v : Slot} (hv : s.slotAt sa = some v) :
    exec (.len sa) s = .next (s.answered (responseWord .ok 0 v.len)) := by
  rw [exec_len, execLen, withSlot_some hv]
  rfl

/-- Settles O27: the fields of LEN's response word. -/
theorem lenAnswersTheLength : Obligations.LenAnswersTheLength := by
  intro s sa v hv
  exact ⟨_, exec_len_slot hv, respStatus_responseWord .ok 0 v.len, respP_responseWord .ok 0 v.len,
    respR_responseWord .ok 0 v.len⟩

/-! ### The empty array: every index and range is refused (R100's corner case, 70_reset_and_hazards.md R233) -/

/-- The command ends in a validation error, OUT_OF_RANGE or INVALID_RANGE, and changes nothing else. -/
def RefusedBy (s : State) (r : Result) : Prop :=
  ∃ w, r = .next (s.answered w) ∧ (respStatus w = 1 ∨ respStatus w = 2)

theorem CommandError.Reports.status {e : CommandError} {len : Field24} {indices : List Field24}
    (h : e.Reports len indices) : respStatus e.response = 1 ∨ respStatus e.response = 2 := by
  obtain rfl | ⟨k, rfl, -⟩ := h
  · exact .inr (respStatus_responseWord .invalidRange 0 0)
  · exact .inl (respStatus_responseWord .outOfRange k len)

/-- No index is below the length 0. -/
theorem checkIndex_len_zero (index : Field24) : ∃ e, checkIndex 0 index = some e :=
  ⟨_, checkIndex_some (Nat.zero_le _)⟩

/-- No range ends below the length 0. -/
theorem checkRange_len_zero (low high : Field24) : ∃ e, checkRange 0 low high = some e :=
  Option.ne_none_iff_exists'.1 fun hnone => Nat.not_lt_zero _ (checkRange_none.1 hnone).2

section
variable {s : State} {sa : SlotNo} {v : Slot}

theorem refusedBy_checkIndex (hlen : v.len = 0) (index : Field24) (k : Result) :
    RefusedBy s (guarded (checkIndex v.len index) s k) := by
  obtain ⟨e, he⟩ := checkIndex_len_zero index
  rw [hlen, he]
  exact ⟨_, rfl, (checkIndex_reports he).status⟩

theorem refusedBy_rangeApply (op : RangeOp) (hv : s.slotAt sa = some v) (hlen : v.len = 0) (low high : Field24) :
    RefusedBy s (rangeApply op sa low high s) := by
  obtain ⟨e, he⟩ := checkRange_len_zero low high
  exact ⟨_, rangeApply_error op hv (hlen ▸ he), (checkRange_reports he).status⟩

theorem refusedBy_get (hv : s.slotAt sa = some v) (hlen : v.len = 0) (index : Field24) :
    RefusedBy s (exec (.get sa index) s) := by
  rw [exec_get, execGet, withSlot_some hv]
  exact refusedBy_checkIndex hlen index _

theorem refusedBy_put (hv : s.slotAt sa = some v) (hlen : v.len = 0) (index value : Field24) :
    RefusedBy s (exec (.put sa index value) s) := by
  rw [exec_put, execPut, withSlot_some hv]
  exact refusedBy_checkIndex hlen index _

end

/-! ### The empty array: it has no words to count or compare -/

theorem bufferWords_of_len_zero {v : Slot} (hlen : v.len = 0) : bufferWords v = [] := by
  simp [bufferWords, nwords, hlen]

theorem slotCount_of_len_zero {v : Slot} (hlen : v.len = 0) : slotCount v = 0 := by
  rw [slotCount, bufferWords_of_len_zero hlen]
  rfl

/-- Two empty arrays compare by the verdict on no words at all. -/
theorem compareSlots_empty (verdict : List (Word × Word) → Bool) {s : State} {sa sb : SlotNo} {a b : Slot}
    (ha : s.slotAt sa = some a) (hb : s.slotAt sb = some b) (hla : a.len = 0) (hlb : b.len = 0) :
    compareSlots verdict sa sb s = .next (s.answered (if verdict [] then 1 else 0)) := by
  rw [compareSlots_sameLen verdict ha hb (hla.trans hlb.symm), bufferWords_of_len_zero hla,
    List.zip_nil_left, responseWord_ok_boolField]

/-- Settles O37: every index and range is refused, and the buffer has no words. -/
theorem emptyArrayBehaviour : Obligations.EmptyArrayBehaviour := by
  intro s sa sb v v' x y hv hlen hv' hlen'
  refine ⟨fun i hi => ?_, ?_, ?_, ?_, ?_, ?_⟩
  · simp only [List.mem_cons, List.not_mem_nil, or_false] at hi
    obtain rfl | rfl | rfl | rfl | rfl := hi
    · exact refusedBy_get hv hlen x
    · exact refusedBy_put hv hlen x y
    · exact refusedBy_rangeApply .set hv hlen x y
    · exact refusedBy_rangeApply .clear hv hlen x y
    · exact refusedBy_rangeApply .not hv hlen x y
  · rw [exec_len_slot hv, hlen]; rfl
  · rw [exec_count_slot hv, slotCount_of_len_zero hlen]; rfl
  · exact compareSlots_empty allEqual hv hv' hlen hlen'
  · exact compareSlots_empty allSubset hv hv' hlen hlen'
  · exact compareSlots_empty (fun ps => allSubset ps && someDiffers ps) hv hv' hlen hlen'

/-! ### Words of the rules' examples (30_encoding.md R64) -/

/-- A word that a command of the bank encodes to is decoded to that command. -/
theorem decode_of_encode_eq {n : Nat} {cw : Word} {i : Instr} (hcw : encode i = cw)
    (hwf : i.wellFormed n = true) : decode n cw = .ok i :=
  hcw ▸ decodeOfEncodeIsTheCommand n i hwf

/-- Settles O17: each word is the encoding of its command, and the decoder undoes it (O13). -/
theorem writtenWordsDecode : Obligations.WrittenWordsDecode :=
  ⟨decode_of_encode_eq rfl rfl, decode_of_encode_eq rfl rfl, decode_of_encode_eq rfl rfl,
    decode_of_encode_eq rfl rfl, decode_of_encode_eq rfl rfl, decode_of_encode_eq rfl rfl⟩

end Sys2Proof.Machine
end

section
/-! Proofs of the family 41_validation.md: a response with an error status changes nothing (O46), the six commands
without a check never fail (O47), and the checks of an index (O30) and of a range (O35). -/

namespace Sys2Proof.Machine

/-! ### Validation comes before mutation (41_validation.md R112) -/

/-- Settles O46: a command that rewrites a slot answers OK, so one that answers an error only answers. -/
theorem errorResponsesChangeNothing : Obligations.ErrorResponsesChangeNothing := by
  intro i s t w h hw herr
  obtain ⟨w', rfl⟩ | ⟨sa, v, v', w', -, -, -, -, hok, rfl⟩ := exec_cases h
  · obtain rfl : w' = w := Option.some.inj hw
    rfl
  · obtain rfl : w' = w := Option.some.inj hw
    exact absurd hok herr

/-! ### The six commands without a check (41_validation.md R114) -/

/-- The command ends in OK, whatever it writes and whatever R it answers. -/
def EndsOk (res : Result) : Prop := ∃ r u, res = respond .ok 0 r u

theorem EndsOk.status {res : Result} {t : State} {w : Word} (hres : EndsOk res) (h : res = .next t)
    (hw : t.rbuf = some w) : respStatus w = 0 := by
  obtain ⟨r, u, rfl⟩ := hres
  cases h
  cases hw
  exact respStatus_responseWord .ok 0 r

theorem endsOk_withSlot {s : State} {sa : SlotNo} {k : Slot → Result} (hin : sa.toNat < s.nslot)
    (hk : ∀ v, EndsOk (k v)) : EndsOk (withSlot sa s k) := by
  obtain ⟨v, hv⟩ := Option.isSome_iff_exists.1 ((slotAt_isSome s sa).trans (decide_eq_true hin))
  rw [withSlot_some hv]
  exact hk v

/-- A comparison ends in OK on equal lengths and on a mismatch alike (45_comparison.md R160). -/
theorem endsOk_compareSlots (verdict : List (Word × Word) → Bool) {s : State} {sa sb : SlotNo}
    (hsa : sa.toNat < s.nslot) (hsb : sb.toNat < s.nslot) : EndsOk (compareSlots verdict sa sb s) := by
  refine endsOk_withSlot hsa fun a => endsOk_withSlot hsb fun b => ?_
  split
  · exact ⟨_, _, rfl⟩
  · exact ⟨_, _, rfl⟩

theorem endsOk_exec_unchecked {i : Instr} {s : State}
    (hi : i.opcode ∈ [Opcode.new, .len, .count, .eq, .leq, .lt]) (hwf : i.wellFormed s.nslot = true) :
    EndsOk (exec i s) := by
  have hin := wellFormed_iff.1 hwf
  cases i with
  | new sa _ => exact endsOk_withSlot (hin sa (.head _)) fun _ => ⟨_, _, rfl⟩
  | len sa => exact endsOk_withSlot (hin sa (.head _)) fun _ => ⟨_, _, rfl⟩
  | count sa => exact endsOk_withSlot (hin sa (.head _)) fun _ => ⟨_, _, rfl⟩
  | eq sa sb => exact exec_eq sa sb s ▸ endsOk_compareSlots _ (hin sa (.head _)) (hin sb (.tail _ (.head _)))
  | leq sa sb => exact exec_leq sa sb s ▸ endsOk_compareSlots _ (hin sa (.head _)) (hin sb (.tail _ (.head _)))
  | lt sa sb => exact exec_lt sa sb s ▸ endsOk_compareSlots _ (hin sa (.head _)) (hin sb (.tail _ (.head _)))
  | _ => simp [Instr.opcode] at hi

/-- Settles O47: on slots of the bank the six commands end in OK; on another slot every command is ILLEGAL (O18). -/
theorem sixCommandsNeverFailValidation : Obligations.SixCommandsNeverFailValidation := by
  intro i s t w hi h hw
  refine ⟨fun hwf => (endsOk_exec_unchecked hi hwf).status h hw, fun hwf => ?_⟩
  obtain rfl := Host.Outcome.next.inj ((exec_not_wellFormed hwf).symm.trans h)
  obtain rfl : CommandError.illegalCommand.response = w := Option.some.inj hw
  exact respStatus_responseWord .illegalCommand 0 0

/-! ### The index of GET and PUT (41_validation.md R110) -/

section
variable {s : State} {sa : SlotNo} {v : Slot} {i : Field24}

/-- GET on an index that the check refuses. -/
theorem exec_get_error {e : CommandError} (hv : s.slotAt sa = some v) (he : checkIndex v.len i = some e) :
    exec (.get sa i) s = .next (s.answered e.response) := by
  rw [exec_get, execGet, withSlot_some hv, he]
  rfl

/-- PUT on an index that the check refuses. -/
theorem exec_put_error {e : CommandError} (x : Field24) (hv : s.slotAt sa = some v)
    (he : checkIndex v.len i = some e) : exec (.put sa i x) s = .next (s.answered e.response) := by
  rw [exec_put, execPut, withSlot_some hv, he]
  rfl

/-- GET on a valid index of a slot of the bank. -/
theorem exec_get_valid (hv : s.slotAt sa = some v) (hi : i.toNat < v.len.toNat) :
    exec (.get sa i) s = .next (s.answered (responseWord .ok 0 (boolField (bitAt v.st i.toNat)))) := by
  rw [exec_get, execGet, withSlot_some hv, checkIndex_none.2 hi]
  rfl

end

/-- Settles O30: both commands answer the check's error, or both the bit. -/
theorem indexCheckOfGetAndPut : Obligations.IndexCheckOfGetAndPut := by
  intro s sa i value v hv
  refine ⟨fun hi => ?_, fun hi => ?_⟩
  · have he := checkIndex_some hi
    exact ⟨_, respStatus_responseWord .outOfRange i v.len, respP_responseWord .outOfRange i v.len,
      respR_responseWord .outOfRange i v.len, exec_get_error hv he, exec_put_error value hv he⟩
  · exact ⟨_, _, _, exec_get_valid hv hi, exec_put_valid value hv hi, rfl, rfl, respStatus_responseWord .ok 0 _⟩

/-! ### The range of SET, CLEAR and NOT (41_validation.md R111) -/

theorem exec_ranged {i : Instr} {sa : SlotNo} {low high : Field24}
    (hi : i = .set sa low high ∨ i = .clear sa low high ∨ i = .not sa low high) (s : State) :
    ∃ op, exec i s = rangeApply op sa low high s := by
  obtain rfl | rfl | rfl := hi
  · exact ⟨.set, exec_set sa low high s⟩
  · exact ⟨.clear, exec_clear sa low high s⟩
  · exact ⟨.not, exec_not sa low high s⟩

/-- A range with an end `k` that is the first not below the length: OUT_OF_RANGE, P = `k`, R = the length. -/
theorem rangeApply_outOfRange (op : RangeOp) {s : State} {sa : SlotNo} {v : Slot} {low high k : Field24}
    (hv : s.slotAt sa = some v) (he : checkRange v.len low high = some (.outOfRange k v.len)) :
    ∃ w, rangeApply op sa low high s = .next (s.answered w) ∧ respStatus w = 1 ∧ respP w = k ∧ respR w = v.len :=
  ⟨_, rangeApply_error op hv he, respStatus_responseWord .outOfRange k v.len,
    respP_responseWord .outOfRange k v.len, respR_responseWord .outOfRange k v.len⟩

/-- Settles O35: one clause for each outcome of `checkRange`. -/
theorem rangeChecksInOrder : Obligations.RangeChecksInOrder := by
  intro i s sa low high v hi hv
  obtain ⟨op, hexec⟩ := exec_ranged hi s
  rw [hexec]
  refine ⟨fun hlt => ?_, fun hle hlow => ?_, fun _ hlow hhigh => ?_, fun hle hhigh => ?_⟩
  · exact rangeApply_error op hv (checkRange_invalid hlt)
  · exact rangeApply_outOfRange op hv (checkRange_low hle hlow)
  · exact rangeApply_outOfRange op hv (checkRange_high hlow hhigh)
  · exact ⟨_, rangeApply_valid op hv hle hhigh, rfl, rfl⟩

end Sys2Proof.Machine
end

section
/-! Proofs of the family 42_single_bit.md: GET answers a bit (O28), PUT rewrites one and answers the old one (O29),
and the laws of the two together (O31). -/

namespace Sys2Proof.Machine

/-- Settles O28: the fields of GET's response word. -/
theorem getAnswersTheBit : Obligations.GetAnswersTheBit := by
  intro s sa i v hv hi
  exact ⟨_, exec_get_valid hv hi, respStatus_responseWord .ok 0 _, respP_responseWord .ok 0 _,
    respR_responseWord .ok 0 _⟩

/-- Settles O29: the bits and bytes of the storage PUT writes, and the frame around its slot. -/
theorem putWritesOneBitAndAnswersTheOld : Obligations.PutWritesOneBitAndAnswersTheOld := by
  intro s sa i value v hv hw hi
  have hcap : i.toNat < Config.capBits := field24_lt_capBits i
  refine ⟨_, { v with st := putBit v.st i.toNat value }, _, exec_put_valid value hv hi, ⟨rfl, rfl⟩,
    respStatus_responseWord .ok 0 _, respP_responseWord .ok 0 _, respR_responseWord .ok 0 _,
    setSlot_slotAt_same _ (slotAt_lt hv), rfl, ?bits, ?bytes, sameOutside_setSlot_answered s sa _ _⟩
  case bits => exact (putBit_spec hw hcap value).2
  case bytes => exact fun a ha => memRead_putBit_other hw hcap value ha

/-- GET right after a PUT on the same index answers the bit the PUT wrote, whatever stood there before. -/
theorem exec_get_of_put {s t : State} {sa : SlotNo} {v : Slot} {i value : Field24} (hv : s.slotAt sa = some v)
    (hw : v.st.wf = true) (hi : i.toNat < v.len.toNat) (h : exec (.put sa i value) s = .next t) :
    exec (.get sa i) t = .next (t.answered (responseWord .ok 0 (boolField (decide (value ≠ 0))))) := by
  obtain rfl := Host.Outcome.next.inj ((exec_put_valid value hv hi).symm.trans h)
  have hv' := setSlot_slotAt_same { v with st := putBit v.st i.toNat value } (slotAt_lt hv)
  have hbit : bitAt (putBit v.st i.toNat value) i.toNat = decide (value ≠ 0) := by
    rw [(putBit_spec hw (field24_lt_capBits i) value).2, if_pos rfl]
  rw [exec_get_valid ((answered_slotAt _ _ sa).trans hv') hi, hbit]

/-- Settles O31: inside the length PUT answers the word GET would have, and the next GET the bit written; outside
it both answer the error of one check. -/
theorem singleBitLaws : Obligations.SingleBitLaws := by
  refine ⟨fun s sa i value v hv hw hi => ?inside, fun s sa i value v hv hi => ?outside⟩
  case inside =>
    have hput := exec_put_valid value hv hi
    refine ⟨_, _, _, exec_get_valid hv hi, hput, rfl, exec_get_of_put hv hw hi hput, ?_⟩
    rw [answered_rbuf, responseWord_ok_boolField]
    simp
  case outside =>
    have he := checkIndex_some hi
    exact ⟨_, _, _, exec_get_error hv he, exec_put_error value hv he, rfl, rfl,
      respStatus_responseWord .outOfRange i v.len⟩

end Sys2Proof.Machine
end

section
/-! Proofs of the family 43_ranged.md: the masks and the byte operations (O25), the one pass over a run of bytes
(O24), what SET, CLEAR and NOT make of each bit (O32, O33, O34), and COUNT after them (O39). -/

namespace Sys2Proof.Machine

/-! ### Masks and byte operations (43_ranged.md R130, R131) -/

/-- Settles O25: the three operations' clauses are one rule, read at each operation. -/
theorem masksAndByteOperations : Obligations.MasksAndByteOperations := by
  refine ⟨fun k hk j hj => ⟨getLsbD_maskAbove k hj, getLsbD_maskBelow hk j⟩, fun b m j hj => ⟨?_, ?_, ?_⟩⟩
  · exact getLsbD_applyByte .set b m hj
  · exact getLsbD_applyByte .clear b m hj
  · exact getLsbD_applyByte .not b m hj

/-! ### One pass and the loop of byte writes (00_scope.md R11, 43_ranged.md R132) -/

/-- `for j in k .. k+n-1: MemWrite(s, j, 1, f(MemRead(s, j, 1)))`, one write after another. -/
def byteLoop (f : Byte → Byte) (k n : Nat) (m : Memory) : Memory :=
  (List.range n).foldl (fun m' j => memWrite m' (k + j) (f (memRead m' (k + j)))) m

@[simp] theorem byteLoop_zero (f : Byte → Byte) (k : Nat) (m : Memory) : byteLoop f k 0 m = m := rfl

/-- The loop's last round writes the byte at the top address. -/
theorem byteLoop_succ (f : Byte → Byte) (k n : Nat) (m : Memory) :
    byteLoop f k (n + 1) m = memWrite (byteLoop f k n m) (k + n) (f (memRead (byteLoop f k n m) (k + n))) := by
  simp [byteLoop, List.range_succ]

/-- The loop keeps the canonical form, and no round reads a byte that an earlier one wrote. -/
theorem byteLoop_spec (f : Byte → Byte) {k n : Nat} {m : Memory} (h : m.wf = true) (hn : k + n ≤ Config.capB) :
    (byteLoop f k n m).wf = true ∧
      ∀ a, memRead (byteLoop f k n m) a = if k ≤ a ∧ a < k + n then f (memRead m a) else memRead m a := by
  induction n with
  | zero => exact ⟨h, fun a => by rw [byteLoop_zero, if_neg (by omega)]⟩
  | succ n ih =>
    obtain ⟨hw, hread⟩ := ih (by omega)
    have hlt : k + n < Config.capB := by omega
    have htop : memRead (byteLoop f k n m) (k + n) = memRead m (k + n) := by rw [hread, if_neg (by omega)]
    rw [byteLoop_succ, htop]
    refine ⟨memWrite_wf hw hlt _, fun a => ?_⟩
    rw [memRead_memWrite hw hlt, hread]
    by_cases ha : a = k + n
    · rw [if_pos ha, if_pos (by omega), ha]
    · rw [if_neg ha]
      exact if_congr (by omega) rfl rfl

/-- Settles O24: the pass and the loop leave canonical storages that read the same at every address. -/
theorem onePassIsTheByteLoop : Obligations.OnePassIsTheByteLoop := by
  intro f k n m h hn
  obtain ⟨hw, hread⟩ := byteLoop_spec f h hn
  exact memory_ext (mapBytes_wf f h hn) hw fun a => (memRead_mapBytes f h hn a).trans (hread a).symm

/-! ### SET, CLEAR and NOT, bit by bit (43_ranged.md R133 to R136) -/

/-- RangeApply on a valid range: the bits of the range take the operation's value, and the rest of the slot and of
the state is as before. -/
theorem rangeApply_effect (op : RangeOp) {s : State} {sa : SlotNo} {v : Slot} {low high : Field24}
    (hv : s.slotAt sa = some v) (hw : v.st.wf = true) (hle : low.toNat ≤ high.toNat)
    (hlen : high.toNat < v.len.toNat) :
    ∃ t v', rangeApply op sa low high s = .next t ∧ t.endedWith 0 ∧ t.slotAt sa = some v' ∧
      v'.len = v.len ∧
      (∀ j, bitAt v'.st j = if low.toNat ≤ j ∧ j ≤ high.toNat then op.applyBit (bitAt v.st j) else bitAt v.st j) ∧
      (∀ a, a < low.toNat / 8 ∨ high.toNat / 8 < a → memRead v'.st a = memRead v.st a) ∧
      s.SameOutside t sa := by
  have hcap := field24_lt_capBits high
  exact ⟨_, { v with st := rangeMem op v.st low.toNat high.toNat }, rangeApply_valid op hv hle hlen, ⟨rfl, rfl⟩,
    setSlot_slotAt_same _ (slotAt_lt hv), rfl, (rangeMem_spec op hw hle hcap).2,
    fun _ => memRead_rangeMem_other op hw hle hcap, sameOutside_setSlot_answered s sa _ _⟩

/-- Settles O32: `rangeApply_effect` where the operation's value is 1. -/
theorem setForcesTheRangeToOne : Obligations.SetForcesTheRangeToOne := by
  intro s sa low high v hv hw hle hlen
  rw [exec_set]
  exact rangeApply_effect .set hv hw hle hlen

/-- Settles O33: `rangeApply_effect` where the operation's value is 0. -/
theorem clearForcesTheRangeToZero : Obligations.ClearForcesTheRangeToZero := by
  intro s sa low high v hv hw hle hlen
  rw [exec_clear]
  exact rangeApply_effect .clear hv hw hle hlen

/-- Settles O34: `rangeApply_effect` where the operation's value is the flipped bit. -/
theorem notFlipsTheRange : Obligations.NotFlipsTheRange := by
  intro s sa low high v hv hw hle hlen
  rw [exec_not]
  exact rangeApply_effect .not hv hw hle hlen

/-! ### COUNT after a ranged command (43_ranged.md R137, 44_popcount.md R151, R152) -/

/-- Under INV the count fits the R field, and COUNT answers the number of 1 bits below the length. -/
theorem exec_count_padded {s : State} {sa : SlotNo} {v : Slot} (hv : s.slotAt sa = some v) (hpad : v.Padded) :
    ∃ w, exec (.count sa) s = .next (s.answered w) ∧
      (respR w).toNat = (List.range v.len.toNat).countP (bitAt v.st) := by
  refine ⟨_, exec_count_slot hv, ?_⟩
  have hfits : slotCount v < 2 ^ 24 := (slotCount_le hpad).trans_lt v.len.isLt
  rw [respR_responseWord, BitVec.toNat_ofNat, Nat.mod_eq_of_lt hfits, slotCount_eq hpad]

/-- RangeApply on a valid range of a sound slot, then COUNT: the number of 1 bits of the rewritten range and of
what is around it. -/
theorem count_after_rangeApply (op : RangeOp) {s : State} {sa : SlotNo} {v : Slot} {low high : Field24}
    (hv : s.slotAt sa = some v) (hs : v.Sound) (hle : low.toNat ≤ high.toNat) (hlen : high.toNat < v.len.toNat) :
    ∃ t w, rangeApply op sa low high s = .next t ∧
      t.slotAt sa = some { v with st := rangeMem op v.st low.toNat high.toNat } ∧
      exec (.count sa) t = .next (t.answered w) ∧
      (respR w).toNat = (List.range v.len.toNat).countP fun j =>
        if low.toNat ≤ j ∧ j ≤ high.toNat then op.applyBit (bitAt v.st j) else bitAt v.st j := by
  have hslot := setSlot_slotAt_same { v with st := rangeMem op v.st low.toNat high.toNat } (slotAt_lt hv)
  have hbits := (rangeMem_spec op hs.canonical hle (field24_lt_capBits high)).2
  obtain ⟨w, hcount, hw⟩ := exec_count_padded ((answered_slotAt _ (responseWord .ok 0 0) sa).trans hslot)
    (sound_rangeMem op hs hle hlen).padded
  exact ⟨_, w, rangeApply_valid op hv hle hlen, hslot, hcount,
    hw.trans (congrArg (List.countP · (List.range v.len.toNat)) (funext hbits))⟩

/-- The numbers from `low` to `high`, both included. -/
theorem countP_range_between {low high n : Nat} (hle : low ≤ high) (hn : high < n) :
    (List.range n).countP (fun j => decide (low ≤ j ∧ j ≤ high)) = high - low + 1 := by
  have hbelow : (List.range low).countP (fun j => decide (low ≤ j ∧ j ≤ high)) = 0 :=
    List.countP_eq_zero.2 fun j hj => by
      have hj := List.mem_range.1 hj
      rw [decide_eq_true_eq]
      omega
  have hinside : (List.range (high - low + 1)).countP ((fun j => decide (low ≤ j ∧ j ≤ high)) ∘ (low + ·)) =
      (List.range (high - low + 1)).length :=
    List.countP_eq_length.2 fun j hj => by
      have hj := List.mem_range.1 hj
      rw [Function.comp_apply, decide_eq_true_eq]
      omega
  rw [countP_range_padding (n := low + (high - low + 1)) (by omega) fun j _ _ => decide_eq_false (by omega),
    List.range_add, List.countP_append, List.countP_map, hbelow, hinside, List.length_range, Nat.zero_add]

/-- Flipping every bit leaves as many 1 bits as there were 0 bits. -/
theorem countP_range_flip (p : Nat → Bool) (n : Nat) :
    (List.range n).countP (fun j => !p j) = n - (List.range n).countP p := by
  have hsplit := List.length_eq_countP_add_countP p (l := List.range n)
  simp only [List.length_range, Bool.not_eq_true, Bool.decide_eq_false] at hsplit
  omega

/-- The third law: SET on an all-zero array leaves 1 bits exactly in the range, and CLEAR of the same range takes
them away. -/
theorem count_after_set_then_clear {s : State} {sa : SlotNo} {low high : Field24} {v : Slot}
    (hv : s.slotAt sa = some v) (hzero : v.st = memZero) (hle : low.toNat ≤ high.toNat)
    (hlen : high.toNat < v.len.toNat) :
    ∃ t1 w2 t3 w4, exec (.set sa low high) s = .next t1 ∧ exec (.count sa) t1 = .next (t1.answered w2) ∧
      (respR w2).toNat = high.toNat - low.toNat + 1 ∧
      exec (.clear sa low high) (t1.answered w2) = .next t3 ∧ exec (.count sa) t3 = .next (t3.answered w4) ∧
      (respR w4).toNat = 0 := by
  obtain ⟨len, st⟩ := v
  obtain rfl : st = memZero := hzero
  have hs : Slot.Sound { len := len, st := memZero } := sound_empty len
  obtain ⟨t1, w2, hset, hslot, hcount2, hw2⟩ := count_after_rangeApply .set hv hs hle hlen
  obtain ⟨t3, w4, hclear, -, hcount4, hw4⟩ := count_after_rangeApply .clear (s := t1.answered w2) hslot
    (sound_rangeMem .set hs hle hlen) hle hlen
  refine ⟨t1, w2, t3, w4, hset, hcount2, ?_, hclear, hcount4, ?_⟩
  · rw [hw2, ← countP_range_between hle hlen]
    simp [RangeOp.applyBit]
  · rw [hw4, List.countP_eq_zero]
    intro j _
    rw [(rangeMem_spec .set memZero_wf hle (field24_lt_capBits high)).2]
    split_ifs
    · exact Bool.false_ne_true
    · simp

/-- The fourth law: NOT of the whole array turns its 0 bits into its 1 bits. -/
theorem count_after_not_all {s : State} {sa : SlotNo} {v : Slot} (hv : s.slotAt sa = some v) (hs : v.Sound)
    (hlen : 1 ≤ v.len.toNat) :
    ∃ t w, exec (.not sa 0 (v.len - 1)) s = .next t ∧ exec (.count sa) t = .next (t.answered w) ∧
      (respR w).toNat = v.len.toNat - (List.range v.len.toNat).countP (bitAt v.st) := by
  have hlast : (v.len - 1).toNat = v.len.toNat - 1 := by bv_omega
  obtain ⟨t, w, hnot, -, hcount, hw⟩ := count_after_rangeApply .not (low := 0) (high := v.len - 1) hv hs
    (Nat.zero_le _) (by omega)
  refine ⟨t, w, hnot, hcount, ?_⟩
  rw [hw, ← countP_range_flip]
  refine List.countP_congr fun j hj => ?_
  have hin : (0 : Field24).toNat ≤ j ∧ j ≤ (v.len - 1).toNat :=
    ⟨Nat.zero_le j, by have := List.mem_range.1 hj; omega⟩
  rw [if_pos hin]
  rfl

/-- Settles O39, one clause for each law. -/
theorem countLawsOfTheRangedCommands : Obligations.CountLawsOfTheRangedCommands := by
  refine ⟨fun s sa low high v hv hzero hle hlen => ?third, fun s sa v hv hs hlen => ?fourth⟩
  case third =>
    obtain ⟨t1, w2, t3, w4, hset, hcount2, hw2, hclear, hcount4, hw4⟩ :=
      count_after_set_then_clear hv hzero hle hlen
    exact ⟨t1, _, t3, _, w2, w4, hset, hcount2, rfl, hw2, hclear, hcount4, rfl, hw4⟩
  case fourth =>
    obtain ⟨w1, hcount1, hw1⟩ := exec_count_padded hv hs.padded
    obtain ⟨t2, w3, hnot, hcount3, hw3⟩ := count_after_not_all (s := s.answered w1) hv hs hlen
    exact ⟨_, t2, _, w1, w3, hcount1, rfl, hnot, hcount3, rfl, hw3.trans (by rw [hw1])⟩

end Sys2Proof.Machine
end

section
/-! Proofs of the family 44_popcount.md: what COUNT answers under INV (O38). -/

namespace Sys2Proof.Machine

/-- The one response word COUNT can give on a slot of the bank. -/
theorem exec_count_answer {s : State} {sa : SlotNo} {v : Slot} {w : Word} (hv : s.slotAt sa = some v)
    (h : exec (.count sa) s = .next (s.answered w)) : w = responseWord .ok 0 (BitVec.ofNat 24 (slotCount v)) := by
  have hstate := Host.Outcome.next.inj (h.symm.trans (exec_count_slot hv))
  exact Option.some.inj (congrArg State.rbuf hstate)

/-- Settles O38: INV makes COUNT's sum the number of 1 bits below the length (R152), and the response word's other
fields do not depend on the sum. -/
theorem countAnswersTheNumberOfOnes : Obligations.CountAnswersTheNumberOfOnes := by
  intro s sa v hv hpad
  obtain ⟨w, hcount, hones⟩ := exec_count_padded hv hpad
  have hword := exec_count_answer hv hcount
  have hstatus : respStatus w = 0 := hword ▸ respStatus_responseWord .ok 0 _
  have hp : respP w = 0 := hword ▸ respP_responseWord .ok 0 _
  have hbound : (respR w).toNat ≤ v.len.toNat := by
    rw [hones, ← slotCount_eq hpad]
    exact slotCount_le hpad
  exact ⟨w, hcount, hstatus, hp, hones, hbound⟩

end Sys2Proof.Machine
end

section
/-! Proofs of the family 45_comparison.md: what EQ, LEQ and LT answer under INV (O40, O41, O42), on arrays of
different lengths (O43), on one slot twice (O44), and on an array with one more bit set (O45). -/

namespace Sys2Proof.Machine

/-! ### The verdicts, bit by bit (45_comparison.md R164) -/

/-- Some word differs exactly when some bit below the length does. -/
theorem someDiffers_iff {a b : Slot} (ha : a.Padded) (hb : b.Padded) (hlen : a.len = b.len) :
    someDiffers ((bufferWords a).zip (bufferWords b)) = true ↔
      ∃ i < a.len.toNat, bitAt a.st i ≠ bitAt b.st i := by
  rw [someDiffers_eq, Bool.not_eq_true', ← Bool.not_eq_true, allEqual_iff ha hb hlen]
  push Not
  rfl

theorem boolField_zero_or_one (x : Bool) : boolField x = 0 ∨ boolField x = 1 := by
  cases x
  · exact .inl rfl
  · exact .inr rfl

theorem boolField_decide_eq_one_iff (P : Prop) [Decidable P] : boolField (decide P) = 1 ↔ P := by
  by_cases hP : P <;> simp [boolField, hP]

section
variable {s : State} {sa sb : SlotNo} {a b : Slot}

/-- A comparison of two arrays of one length answers what its word-wise verdict says. -/
theorem compareSlots_decide {verdict : List (Word × Word) → Bool} {P : Prop} [Decidable P]
    (ha : s.slotAt sa = some a) (hb : s.slotAt sb = some b) (hlen : a.len = b.len)
    (hverdict : verdict ((bufferWords a).zip (bufferWords b)) = true ↔ P) :
    compareSlots verdict sa sb s = .next (s.answered (responseWord .ok 0 (boolField (decide P)))) := by
  have hdecide : verdict ((bufferWords a).zip (bufferWords b)) = decide P :=
    Bool.eq_iff_iff.2 (hverdict.trans decide_eq_true_iff.symm)
  rw [compareSlots_sameLen verdict ha hb hlen, hdecide]

/-- EQ under INV: the bits below the length are the same. -/
theorem exec_eq_padded (ha : s.slotAt sa = some a) (hb : s.slotAt sb = some b) (hpa : a.Padded) (hpb : b.Padded)
    (hlen : a.len = b.len) :
    exec (.eq sa sb) s = .next (s.answered (responseWord .ok 0 (boolField
      (decide (∀ i < a.len.toNat, bitAt a.st i = bitAt b.st i))))) :=
  (exec_eq sa sb s).trans (compareSlots_decide ha hb hlen (allEqual_iff hpa hpb hlen))

/-- LEQ under INV: every 1 bit of the first below the length is one of the second. The second's padding does not
matter. -/
theorem exec_leq_padded (ha : s.slotAt sa = some a) (hb : s.slotAt sb = some b) (hpa : a.Padded)
    (hlen : a.len = b.len) :
    exec (.leq sa sb) s = .next (s.answered (responseWord .ok 0 (boolField
      (decide (∀ i < a.len.toNat, bitAt a.st i = true → bitAt b.st i = true))))) :=
  (exec_leq sa sb s).trans (compareSlots_decide ha hb hlen (allSubset_iff hpa hlen))

/-- LT under INV: LEQ's condition, and a bit below the length that differs. -/
theorem exec_lt_padded (ha : s.slotAt sa = some a) (hb : s.slotAt sb = some b) (hpa : a.Padded) (hpb : b.Padded)
    (hlen : a.len = b.len) :
    exec (.lt sa sb) s = .next (s.answered (responseWord .ok 0 (boolField
      (decide ((∀ i < a.len.toNat, bitAt a.st i = true → bitAt b.st i = true) ∧
        ∃ i < a.len.toNat, bitAt a.st i ≠ bitAt b.st i))))) := by
  rw [exec_lt]
  refine compareSlots_decide ha hb hlen ?_
  rw [Bool.and_eq_true, allSubset_iff hpa hlen, someDiffers_iff hpa hpb hlen]

end

/-- Settles O40: the R field of `exec_eq_padded`. -/
theorem eqComparesTheBits : Obligations.EqComparesTheBits := by
  intro s sa sb a b ha hb hpa hpb hlen
  exact ⟨_, exec_eq_padded ha hb hpa hpb hlen, boolField_zero_or_one _, boolField_decide_eq_one_iff _⟩

/-- Settles O41: the R field of `exec_leq_padded`. -/
theorem leqAnswersSubset : Obligations.LeqAnswersSubset := by
  intro s sa sb a b ha hb hpa _ hlen
  exact ⟨_, exec_leq_padded ha hb hpa hlen, boolField_zero_or_one _, boolField_decide_eq_one_iff _⟩

/-- Settles O42: the R field of `exec_lt_padded`. -/
theorem ltAnswersProperSubset : Obligations.LtAnswersProperSubset := by
  intro s sa sb a b ha hb hpa hpb hlen
  exact ⟨_, exec_lt_padded ha hb hpa hpb hlen, boolField_zero_or_one _, boolField_decide_eq_one_iff _⟩

/-! ### Arrays of different lengths (45_comparison.md R160) -/

/-- Settles O43: the lengths are looked at before any verdict. -/
theorem lengthMismatchAnswersFalse : Obligations.LengthMismatchAnswersFalse := by
  intro i s sa sb a b hi ha hb hlen
  have hnamed : slotsNamed i = [sa, sb] := by
    obtain rfl | rfl | rfl := hi <;> rfl
  obtain ⟨verdict, hexec⟩ := exec_twoSlots hnamed s
  exact hexec.trans (compareSlots_mismatch verdict ha hb hlen)

/-! ### A slot compared with itself (45_comparison.md R166) -/

theorem allEqual_self (v : Slot) : allEqual ((bufferWords v).zip (bufferWords v)) = true :=
  (allEqual_iff_bytes rfl).2 fun _ _ => rfl

theorem allSubset_self (v : Slot) : allSubset ((bufferWords v).zip (bufferWords v)) = true :=
  (allSubset_iff_bytes rfl).2 fun k _ => BitVec.and_not_self (memRead v.st k)

theorem someDiffers_self (v : Slot) : someDiffers ((bufferWords v).zip (bufferWords v)) = false := by
  rw [someDiffers_eq, allEqual_self]
  rfl

theorem slotWritten_of_comparison {i : Instr} (h : i.opcode ∈ [Opcode.eq, .leq, .lt]) : slotWritten i = none := by
  cases i with
  | eq sa sb => rfl
  | leq sa sb => rfl
  | lt sa sb => rfl
  | _ => simp [Instr.opcode] at h

/-- Settles O44: the verdicts on a slot paired with itself need no INV. -/
theorem selfComparison : Obligations.SelfComparison := by
  refine ⟨fun s sa v hv => ⟨?eq, ?leq, ?lt⟩, fun i s t hi h => ?frame⟩
  case eq => rw [exec_eq, compareSlots_sameLen _ hv hv rfl, allEqual_self]; rfl
  case leq => rw [exec_leq, compareSlots_sameLen _ hv hv rfl, allSubset_self]; rfl
  case lt => rw [exec_lt, compareSlots_sameLen _ hv hv rfl, someDiffers_self, Bool.and_false]; rfl
  case frame =>
    obtain ⟨w, rfl⟩ := exec_answers_of_writes_none (slotWritten_of_comparison hi) h
    rfl

/-! ### One more bit (45_comparison.md R165, the second law) -/

/-- PUT of a 1 into a copy of a slot: the other slot is as before, and the copy has the old bits and the new one. -/
theorem slots_after_put_one {s t : State} {sa sb : SlotNo} {k : Field24} {v : Slot} (hne : sa ≠ sb)
    (ha : s.slotAt sa = some v) (hb : s.slotAt sb = some v) (hs : v.Sound) (hk : k.toNat < v.len.toNat)
    (h : exec (.put sb k 1) s = .next t) :
    ∃ v', t.slotAt sa = some v ∧ t.slotAt sb = some v' ∧ v'.Sound ∧ v.len = v'.len ∧
      ∀ j, bitAt v'.st j = true ↔ j = k.toNat ∨ bitAt v.st j = true := by
  obtain rfl := Host.Outcome.next.inj ((exec_put_valid 1 hb hk).symm.trans h)
  refine ⟨{ v with st := putBit v.st k.toNat 1 }, (setSlot_slotAt_other s _ hne).trans ha,
    setSlot_slotAt_same _ (slotAt_lt hb), sound_putBit hs hk, rfl, fun j => ?_⟩
  rw [(putBit_spec hs.canonical (field24_lt_capBits k) 1).2]
  by_cases hj : j = k.toNat <;> simp [hj]

/-- Settles O45: the new bit is the one in which the copy exceeds the original. -/
theorem oneMoreBitIsAProperSuperset : Obligations.OneMoreBitIsAProperSuperset := by
  intro s t sa sb k v hne ha hb hs hk hzero h
  obtain ⟨v', ha', hb', hs', hlen, hbits⟩ := slots_after_put_one hne ha hb hs hk h
  have hone : bitAt v'.st k.toNat = true := (hbits _).2 (.inl rfl)
  have hsub : ∀ i < v.len.toNat, bitAt v.st i = true → bitAt v'.st i = true := fun i _ hi => (hbits i).2 (.inr hi)
  have hdiff : ∃ i < v.len.toNat, bitAt v.st i ≠ bitAt v'.st i := ⟨k.toNat, hk, by simp [hzero, hone]⟩
  have hnsub : ¬ ∀ i < v'.len.toNat, bitAt v'.st i = true → bitAt v.st i = true := fun hall =>
    Bool.false_ne_true (hzero.symm.trans (hall _ (hlen ▸ hk) hone))
  refine ⟨?_, ?_, ?_⟩
  · rw [exec_leq_padded ha' hb' hs.padded hlen, decide_eq_true hsub]; rfl
  · rw [exec_lt_padded ha' hb' hs.padded hs'.padded hlen, decide_eq_true ⟨hsub, hdiff⟩]; rfl
  · rw [exec_leq_padded hb' ha' hs'.padded hlen.symm, decide_eq_false hnsub]; rfl

end Sys2Proof.Machine
end

section
/-! Proofs of the family 46_export.md: ToArray, run by the host, returns every bit and changes no slot (O12). -/

namespace Sys2Proof.Machine

/-! ### One transaction, and one command of a host program (70_reset_and_hazards.md R234, R239) -/

/-- The transaction of a command that only answers: the host takes the answer, and no slot changes. -/
theorem transaction_of_answered {i : Instr} {s : State} {w : Word} (hidle : s.inFlight = none)
    (hempty : s.rbuf = none) (hwf : i.wellFormed s.nslot = true) (h : exec i s = .next (s.answered w)) :
    ∃ t, transaction (encode i) s = .next t ∧ t.runEnded ∧ t.taken = s.taken ++ [w] ∧ t.slots = s.slots := by
  obtain ⟨t, r, u, hrun, hidle', hempty', hhost, -, htaken, hu, hslots, hrbuf⟩ :=
    stepN_transaction s (s := { s with host := [.issue (encode i), .take] }) hidle hempty rfl
  have hexec : executeWord (encode i) s = .next (s.answered w) :=
    (executeWord_ok (decode_of_encode_eq rfl hwf)).trans h
  obtain rfl : s.answered w = u := Host.Outcome.next.inj (hexec.symm.trans hu)
  obtain rfl : w = r := Option.some.inj hrbuf
  exact ⟨t, hrun, ⟨hhost, hempty', hidle'⟩, htaken, hslots.symm⟩

section
variable {p : HostProgram} {s t : State}

theorem runHost_of_ended (n : Nat) (h : p s.taken = none) : runHost p n s = .next s := by
  cases n with
  | zero => rfl
  | succ n => rw [runHost, h]

theorem runHost_of_transaction {cw : Word} (n : Nat) (h : p s.taken = some cw) (ht : transaction cw s = .next t) :
    runHost p (n + 1) s = runHost p n t := by
  rw [runHost, h]
  dsimp only
  rw [ht]

end

/-! ### ToArray (46_export.md R170, R171) -/

/-- The responses to ToArray's LEN and its first `k` GETs on a slot that holds `v`. -/
def toArrayResponses (v : Slot) (k : Nat) : List Word :=
  responseWord .ok 0 v.len :: (List.range k).map fun i => responseWord .ok 0 (boolField (bitAt v.st i))

theorem toArrayResponses_succ (v : Slot) (k : Nat) :
    toArrayResponses v (k + 1) = toArrayResponses v k ++ [responseWord .ok 0 (boolField (bitAt v.st k))] := by
  simp [toArrayResponses, List.range_succ]

theorem length_toArrayResponses (v : Slot) (k : Nat) : (toArrayResponses v k).length = k + 1 := by
  simp [toArrayResponses]

theorem toArrayElements_toArrayResponses (v : Slot) (k : Nat) :
    toArrayElements (toArrayResponses v k) = (List.range k).map fun i => boolField (bitAt v.st i) := by
  simp [toArrayElements, toArrayResponses]

theorem respStatus_of_mem_toArrayResponses {v : Slot} {k : Nat} {r : Word} (h : r ∈ toArrayResponses v k) :
    respStatus r = 0 := by
  obtain rfl | h := List.mem_cons.1 h
  · exact respStatus_responseWord .ok 0 _
  · obtain ⟨i, -, rfl⟩ := List.mem_map.1 h
    exact respStatus_responseWord .ok 0 _

theorem toArrayProgram_start (sa : SlotNo) (before : List Word) :
    toArrayProgram sa before.length before = some (encode (.len sa)) := by
  rw [toArrayProgram, List.drop_length]

theorem toArrayProgram_after (sa : SlotNo) (before : List Word) (v : Slot) (k : Nat) :
    toArrayProgram sa before.length (before ++ toArrayResponses v k) =
      if k < v.len.toNat then some (encode (.get sa (BitVec.ofNat 24 k))) else none := by
  simp [toArrayProgram, toArrayResponses]

/-- Where ToArray of a slot that holds `v`, begun in `s₀`, stands after LEN and `k` GETs. -/
structure ToArrayAt (s₀ : State) (v : Slot) (k : Nat) (s : State) : Prop where
  ended : s.runEnded
  taken : s.taken = s₀.taken ++ toArrayResponses v k
  slots : s.slots = s₀.slots

section
variable {s₀ s : State} {sa : SlotNo} {v : Slot} {k : Nat}

/-- ToArray's LEN. -/
theorem toArrayAt_len (hidle : s₀.inFlight = none) (hempty : s₀.rbuf = none) (hv : s₀.slotAt sa = some v) :
    ∃ t, transaction (encode (.len sa)) s₀ = .next t ∧ ToArrayAt s₀ v 0 t := by
  have hwf : (Instr.len sa).wellFormed s₀.nslot = true := decide_eq_true (slotAt_lt hv)
  obtain ⟨t, hrun, hended, htaken, hslots⟩ := transaction_of_answered hidle hempty hwf (exec_len_slot hv)
  exact ⟨t, hrun, hended, htaken, hslots⟩

/-- The host has changed no slot, so the slot still holds what it held when ToArray began. -/
theorem ToArrayAt.slotAt (hs : ToArrayAt s₀ v k s) (hv : s₀.slotAt sa = some v) : s.slotAt sa = some v := by
  rwa [State.slotAt, hs.slots]

/-- What the host does next: GET on index `k` if it is below the length; otherwise ToArray ends. -/
theorem ToArrayAt.program (hs : ToArrayAt s₀ v k s) (sa : SlotNo) :
    toArrayProgram sa s₀.taken.length s.taken =
      if k < v.len.toNat then some (encode (.get sa (BitVec.ofNat 24 k))) else none := by
  rw [hs.taken, toArrayProgram_after]

/-- ToArray's GET on index `k`. -/
theorem ToArrayAt.get (hs : ToArrayAt s₀ v k s) (hv : s₀.slotAt sa = some v) (hk : k < v.len.toNat) :
    ∃ t, transaction (encode (.get sa (BitVec.ofNat 24 k))) s = .next t ∧ ToArrayAt s₀ v (k + 1) t := by
  have hv' := hs.slotAt hv
  obtain ⟨-, hempty, hidle⟩ := hs.ended
  have hwf : (Instr.get sa (BitVec.ofNat 24 k)).wellFormed s.nslot = true := decide_eq_true (slotAt_lt hv')
  have hindex : (BitVec.ofNat 24 k).toNat = k := Nat.mod_eq_of_lt (hk.trans v.len.isLt)
  have hget := exec_get_valid hv' (hindex.symm ▸ hk)
  rw [hindex] at hget
  obtain ⟨t, hrun, hended, htaken, hslots⟩ := transaction_of_answered hidle hempty hwf hget
  refine ⟨t, hrun, hended, ?_, hslots.trans hs.slots⟩
  rw [htaken, hs.taken, List.append_assoc, ← toArrayResponses_succ]

/-- ToArray's remaining `m` GETs, by induction on `m`; the host ends although it may issue `extra` more commands. -/
theorem ToArrayAt.finishes (hs : ToArrayAt s₀ v k s) (hv : s₀.slotAt sa = some v) {m : Nat} (extra : Nat)
    (hm : k + m = v.len.toNat) :
    ∃ t, runHost (toArrayProgram sa s₀.taken.length) (m + extra) s = .next t ∧ ToArrayAt s₀ v v.len.toNat t := by
  induction m generalizing k s with
  | zero =>
    obtain rfl : k = v.len.toNat := hm
    exact ⟨s, runHost_of_ended _ ((hs.program sa).trans (if_neg (Nat.lt_irrefl _))), hs⟩
  | succ m ih =>
    have hk : k < v.len.toNat := by omega
    obtain ⟨t, hget, ht⟩ := hs.get hv hk
    rw [Nat.add_right_comm, runHost_of_transaction _ ((hs.program sa).trans (if_pos hk)) hget]
    exact ih ht (by omega)

end

/-- Settles O12: LEN, one GET for each index, and what their responses say. -/
theorem toArrayReturnsEveryBit : Obligations.ToArrayReturnsEveryBit := by
  intro s sa v n hempty hidle hv hn
  obtain ⟨extra, rfl⟩ : ∃ extra, n = v.len.toNat + extra + 1 := ⟨n - v.len.toNat - 1, by omega⟩
  obtain ⟨s₁, hlen, hs₁⟩ := toArrayAt_len hidle hempty hv
  obtain ⟨t, hgets, ht⟩ := hs₁.finishes hv extra (Nat.zero_add _)
  refine ⟨t, toArrayResponses v v.len.toNat, ?_, ht.taken, toArrayElements_toArrayResponses v _,
    length_toArrayResponses v _, fun r hr => respStatus_of_mem_toArrayResponses hr, ht.slots, ht.ended⟩
  rw [runHost_of_transaction _ (toArrayProgram_start sa s.taken) hlen, hgets]

end Sys2Proof.Machine
end

section
/-! Proofs of the family 60_exceptions.md: a word that spells no command answers ILLEGAL_COMMAND (O8), and nothing
stops the unit (O5). -/

namespace Sys2Proof.Machine

/-! ### A word that spells no command (60_exceptions.md R203, 30_encoding.md R66) -/

theorem executeWord_undecodable {cw : Word} {e : Illegal} {s : State} (h : decode s.nslot cw = .error e) :
    executeWord cw s = .next (s.answered 0x3000000000000000#64) := by
  rw [executeWord_error h, raiseError, illegalCommand_response]

/-- Settles O8: a busy unit's step is the execution of its word, whether its host waits or not. -/
theorem illegalWordAnswersIllegalCommand : Obligations.IllegalWordAnswersIllegalCommand := by
  refine ⟨fun s cw e hd => executeWord_undecodable hd, fun s cw e hcw hd hr hw => ?_,
    fun s cw e rest hcw hd hh => ?_⟩
  · exact (step_busy hcw hr hw).trans (executeWord_undecodable hd)
  · exact (step_busy_wait hcw hh).trans (executeWord_undecodable (s := { s with host := rest }) hd)

/-! ### Every command ends, and every step goes on (60_exceptions.md R207, 20_memory.md R54) -/

/-- Every command goes on: `sameEffect_exec`, which says so of two runs, on two copies of one state. -/
theorem exec_goes_on (i : Instr) (s : State) : ∃ t, exec i s = .next t := by
  obtain ⟨t, -, ht, -⟩ := sameEffect_exec i (s := s) fun _ _ => rfl
  exact ⟨t, ht⟩

theorem executeWord_goes_on (cw : Word) (s : State) : ∃ t, executeWord cw s = .next t := by
  cases hd : decode s.nslot cw with
  | ok i =>
    rw [executeWord_ok hd]
    exact exec_goes_on i s
  | error e => exact ⟨_, executeWord_undecodable hd⟩

theorem step_reset {s : State} {rest : List HostMove} (hh : s.host = .reset :: rest) :
    step s = .next (resetUnit s rest) := by
  simp only [step, transition, hh]

/-- An idle unit's step, a reset among them. -/
theorem step_idle {s : State} (hidle : s.inFlight = none) : step s = .next (idleStep s) := by
  unfold step transition
  split
  · next hh => rw [idleStep, hh]
  · rw [hidle]

/-- Every step goes on: an idle unit's is total, and a busy unit resets or executes its word. -/
theorem step_goes_on (s : State) : ∃ t, step s = .next t := by
  cases hcw : s.inFlight with
  | none => exact ⟨_, step_idle hcw⟩
  | some cw =>
    by_cases hr : ∃ rest, s.host = .reset :: rest
    · obtain ⟨rest, hh⟩ := hr
      exact ⟨_, step_reset hh⟩
    by_cases hw : ∃ rest, s.host = .wait :: rest
    · obtain ⟨rest, hh⟩ := hw
      rw [step_busy_wait hcw hh]
      exact executeWord_goes_on cw _
    · rw [step_busy hcw (not_exists.1 hr) (not_exists.1 hw)]
      exact executeWord_goes_on cw s

theorem executeWord_nslot {cw : Word} {s t : State} (h : executeWord cw s = .next t) : t.nslot = s.nslot := by
  obtain ⟨i, -, h⟩ | ⟨e, -, rfl⟩ := executeWord_cases h
  · obtain ⟨-, hnslot, -⟩ := exec_frame h
    exact hnslot
  · rfl

theorem idleStep_nslot (s : State) : (idleStep s).nslot = s.nslot := by
  obtain ⟨cw, rest, -, -, e⟩ | ⟨r, rest, -, -, e⟩ | ⟨rest, -, e⟩ | ⟨rest, -, e⟩ | e := idleStep_cases s
  all_goals simp [e]

/-- No step changes `NSLOT`, reset included. -/
theorem step_nslot {s t : State} (h : step s = .next t) : t.nslot = s.nslot := by
  obtain ⟨rest, -, rfl⟩ | ⟨cw, moves, -, h⟩ | ⟨-, rfl⟩ := step_cases h
  · exact resetUnit_nslot s rest
  · exact (executeWord_nslot h).trans (host_nslot s moves)
  · exact idleStep_nslot s

/-- Settles O5: commands and steps go on, and `exec_frame` and `step_nslot` say where. -/
theorem nothingStopsTheUnit : Obligations.NothingStopsTheUnit := by
  refine ⟨fun i s => ?_, fun s => ?_⟩
  · obtain ⟨t, ht⟩ := exec_goes_on i s
    obtain ⟨⟨w, hended⟩, -, hframe⟩ := exec_frame ht
    exact ⟨t, w, ht, hended, hframe⟩
  · obtain ⟨t, ht⟩ := step_goes_on s
    exact ⟨t, ht, step_nslot ht⟩

end Sys2Proof.Machine
end

section
/-! Proofs of the family 70_reset_and_hazards.md: what each step of the protocol does (O1, O6, O7), which steps change
a slot (O51), and what holds for any number of steps: the stall of an untaken response (O9) and the silence after a
reset (O10). -/

namespace Sys2Proof.Machine

/-! ### What holds for any number of steps -/

/-- What every step keeps holds after any number of steps, none of which stops the unit. -/
theorem stepN_keeps {P : State → Prop} (hstep : ∀ s t, P s → step s = .next t → P t) (n : Nat) {s : State}
    (hs : P s) : ∃ t, stepN n s = .next t ∧ P t := by
  induction n generalizing s with
  | zero => exact ⟨s, rfl, hs⟩
  | succ n ih =>
    obtain ⟨u, hu⟩ := step_goes_on s
    rw [stepN_of_step n hu]
    exact ih (hstep s u hs hu)

/-! ### An idle unit's step, move by move (70_reset_and_hazards.md R234, R235, R238) -/

section
variable {s : State}

theorem step_idle_wait {rest : List HostMove} (hidle : s.inFlight = none) (hhost : s.host = .wait :: rest) :
    step s = .next { s with host := rest } := by
  rw [step_idle hidle, idleStep, hhost]

/-- A word offered while the response before it is untaken waits. -/
theorem step_issue_full {cw r : Word} {rest : List HostMove} (hidle : s.inFlight = none) (hfull : s.rbuf = some r)
    (hhost : s.host = .issue cw :: rest) : step s = .next s := by
  rw [step_idle hidle, idleStep, hhost, hfull]

/-- A host that wants a response when there is none waits. -/
theorem step_take_empty {rest : List HostMove} (hidle : s.inFlight = none) (hempty : s.rbuf = none)
    (hhost : s.host = .take :: rest) : step s = .next s := by
  rw [step_idle hidle, idleStep, hhost, hempty]

theorem step_idle_noMove (hidle : s.inFlight = none) (hhost : s.host = []) : step s = .next s := by
  rw [step_idle hidle, idleStep, hhost]

/-- Short of reset, an idle unit's step leaves the bank as it was. -/
theorem idleStep_slots (hr : ∀ rest, s.host ≠ .reset :: rest) : (idleStep s).slots = s.slots := by
  obtain ⟨cw, rest, -, -, e⟩ | ⟨r, rest, -, -, e⟩ | ⟨rest, hhost, -⟩ | ⟨rest, -, e⟩ | e := idleStep_cases s
  · rw [e, acceptCommand_slots]
  · rw [e, takeResponse_slots]
  · exact absurd hhost (hr rest)
  · rw [e]
  · rw [e]

/-- Program order advances only where a word is accepted: by an idle unit whose `rbuf` is Empty. -/
theorem idle_and_empty_of_accepted {t : State} (h : step s = .next t) (hacc : t.accepted = s.accepted + 1) :
    s.inFlight = none ∧ s.rbuf = none := by
  obtain ⟨rest, -, rfl⟩ | ⟨cw, moves, -, hexec⟩ | ⟨hidle, rfl⟩ := step_cases h
  · simp at hacc
  · obtain ⟨-, hsame, -⟩ := executeWord_frame hexec
    simp [hsame] at hacc
  · obtain ⟨cw, rest, -, hempty, -⟩ | ⟨r, rest, -, -, e⟩ | ⟨rest, -, e⟩ | ⟨rest, -, e⟩ | e := idleStep_cases s
    case inl => exact ⟨hidle, hempty⟩
    all_goals simp [e] at hacc

end

/-- Settles O6: each move of an idle unit's host has its step. -/
theorem acceptAndTakeTransitions : Obligations.AcceptAndTakeTransitions :=
  ⟨fun _ _ _ hhost hidle hempty => step_accept hidle hempty hhost,
    fun _ _ _ hhost hidle hfull => step_take hidle hfull hhost,
    fun _ _ => idle_and_empty_of_accepted,
    fun _ _ hhost hidle => step_idle_wait hidle hhost,
    fun _ _ _ _ hhost hidle hfull => step_issue_full hidle hfull hhost,
    fun _ _ hhost hidle hempty => step_take_empty hidle hempty hhost,
    fun _ hhost hidle => step_idle_noMove hidle hhost,
    fun _ hidle hr => ⟨_, step_idle hidle, idleStep_slots hr⟩⟩

/-! ### A busy unit's step (70_reset_and_hazards.md R234, 30_encoding.md R66) -/

/-- A word just accepted, of a host with no moves, is executed by the next step. -/
theorem step_withFetchWord {s : State} (nbits w : Nat) (hhost : s.host = []) :
    step (s.withFetchWord nbits w) = executeWord (tableWord nbits w) (s.withFetchWord nbits w) := by
  have hmoves : (s.withFetchWord nbits w).host = [] := by simp [State.withFetchWord, hhost, dropResets]
  exact step_busy rfl (by simp [hmoves]) (by simp [hmoves])

/-- Settles O7: a busy unit's step executes its word, which is a command's `exec` or ILLEGAL_COMMAND. -/
theorem stepRunsTheDecodedCommand : Obligations.StepRunsTheDecodedCommand := by
  refine ⟨fun s cw i hcw hd hr hw => ?_, fun s cw i rest hcw hd hhost => ?_, fun s cw e hcw hd hr hw => ?_,
    fun s cw e rest hcw hd hhost => ?_, fun s nbits w i hd hhost => ?_, fun s nbits w e hd hhost => ?_⟩
  · exact (step_busy hcw hr hw).trans (executeWord_ok hd)
  · exact (step_busy_wait hcw hhost).trans (executeWord_ok (s := { s with host := rest }) hd)
  · exact (step_busy hcw hr hw).trans (executeWord_undecodable hd)
  · exact (step_busy_wait hcw hhost).trans (executeWord_undecodable (s := { s with host := rest }) hd)
  · exact (step_withFetchWord nbits w hhost).trans (executeWord_ok (s := s.withFetchWord nbits w) hd)
  · exact (step_withFetchWord nbits w hhost).trans (executeWord_undecodable (s := s.withFetchWord nbits w) hd)

/-! ### What changes a slot (70_reset_and_hazards.md R234, R238; 20_memory.md R44) -/

/-- A word whose execution changes a slot spells a command that writes that slot. -/
theorem executeWord_writes {cw : Word} {s t : State} {n : SlotNo} (h : executeWord cw s = .next t)
    (hn : t.slotAt n ≠ s.slotAt n) : ∃ i, decode s.nslot cw = .ok i ∧ slotWritten i = some n := by
  obtain ⟨i, hd, hexec⟩ | ⟨e, -, rfl⟩ := executeWord_cases h
  · exact ⟨i, hd, not_not.1 fun hw => hn (exec_slotAt_not_written hexec hw)⟩
  · exact absurd (answered_slotAt s _ n) hn

/-- Settles O51: short of reset, an idle unit's step changes no slot, and a busy unit's executes its word. -/
theorem onlyCommandsAndResetChangeSlots : Obligations.OnlyCommandsAndResetChangeSlots := by
  intro s t n h hn
  refine or_iff_not_imp_left.2 fun hr => ?_
  obtain ⟨rest, hhost, -⟩ | ⟨cw, moves, hcw, hexec⟩ | ⟨-, rfl⟩ := step_cases h
  · exact absurd ⟨rest, hhost⟩ hr
  · obtain ⟨i, hd, hw⟩ := executeWord_writes hexec hn
    exact ⟨cw, i, hcw, hd, hw⟩
  · exact absurd (congrArg (·[n.toNat]?) (idleStep_slots (not_exists.1 hr))) hn

/-! ### The stall of an untaken response (70_reset_and_hazards.md R235) -/

/-- Stalled on the response `r` as in `s₀`: the unit Idle with `rbuf` Full, nothing accepted and no slot changed since
`s₀`, and a host that will neither take the response nor reset. -/
structure StalledOn (s₀ : State) (r : Word) (s : State) : Prop where
  full : s.rbuf = some r
  idle : s.inFlight = none
  slots : s.slots = s₀.slots
  accepted : s.accepted = s₀.accepted
  untaken : ∀ m ∈ s.host, m ≠ .take ∧ m ≠ .reset

theorem StalledOn.step {s₀ s t : State} {r : Word} (hs : StalledOn s₀ r s) (h : step s = .next t) :
    StalledOn s₀ r t := by
  obtain rfl := Host.Outcome.next.inj ((step_idle hs.idle).symm.trans h)
  obtain ⟨cw, rest, -, hempty, -⟩ | ⟨r', rest, hhost, -, -⟩ | ⟨rest, hhost, -⟩ | ⟨rest, hhost, e⟩ | e :=
    idleStep_cases s
  · exact absurd (hs.full.symm.trans hempty) nofun
  · obtain ⟨htake, -⟩ := hs.untaken .take (by simp [hhost])
    exact absurd rfl htake
  · obtain ⟨-, hreset⟩ := hs.untaken .reset (by simp [hhost])
    exact absurd rfl hreset
  · rw [e]
    exact { hs with untaken := fun m hm => hs.untaken m (hhost ▸ List.mem_cons_of_mem _ hm) }
  · rwa [e]

/-- Settles O9: every step keeps the stall, and the host's take or reset ends it. -/
theorem untakenResponseStallsTheUnit : Obligations.UntakenResponseStallsTheUnit := by
  refine ⟨fun n s r hfull hidle huntaken => ?_, fun s r rest hfull hidle hhost => ?_, fun s rest hhost => ?_⟩
  · obtain ⟨t, hrun, ht⟩ := stepN_keeps (fun _ _ => StalledOn.step) n
      (show StalledOn s r s from ⟨hfull, hidle, rfl, rfl, huntaken⟩)
    exact ⟨t, hrun, ht.slots, ht.full, ht.idle, ht.accepted⟩
  · exact ⟨_, step_take hidle hfull hhost, rfl, rfl, hidle⟩
  · exact ⟨_, step_reset hhost, rfl, rfl⟩

/-! ### Reset (70_reset_and_hazards.md R230 to R232) -/

theorem resetUnit_mem_slots {s : State} {rest : List HostMove} {v : Slot} (hv : v ∈ (resetUnit s rest).slots) :
    v = Slot.empty :=
  List.eq_of_mem_replicate hv

/-- Settles O1. -/
theorem resetLeavesEverySlotEmptyAndUnitIdle : Obligations.ResetLeavesEverySlotEmptyAndUnitIdle := by
  intro s rest hhost
  refine ⟨_, step_reset hhost, resetUnit_nslot s rest, fun v hv => ?_, rfl, rfl, rfl, rfl, rfl⟩
  obtain rfl := resetUnit_mem_slots hv
  exact ⟨rfl, memRead_nil, sound_empty 0⟩

/-- A unit reset and not used since, whose host will issue nothing: every slot empty, nothing in flight, nothing to
take. -/
structure ResetUnused (s : State) : Prop where
  empty : s.rbuf = none
  idle : s.inFlight = none
  slots : ∀ v ∈ s.slots, v = Slot.empty
  noIssue : ∀ cw, HostMove.issue cw ∉ s.host

theorem resetUnused_resetUnit (s : State) {rest : List HostMove} (hrest : ∀ cw, HostMove.issue cw ∉ rest) :
    ResetUnused (resetUnit s rest) :=
  ⟨rfl, rfl, fun _ => resetUnit_mem_slots, hrest⟩

theorem ResetUnused.step {s t : State} (hs : ResetUnused s) (h : step s = .next t) : ResetUnused t := by
  obtain rfl := Host.Outcome.next.inj ((step_idle hs.idle).symm.trans h)
  have hrest {m : HostMove} {rest : List HostMove} (hhost : s.host = m :: rest) (cw : Word) :
      HostMove.issue cw ∉ rest := fun hm => hs.noIssue cw (hhost ▸ List.mem_cons_of_mem m hm)
  obtain ⟨cw, rest, hhost, -, -⟩ | ⟨r, rest, -, hfull, -⟩ | ⟨rest, hhost, e⟩ | ⟨rest, hhost, e⟩ | e :=
    idleStep_cases s
  · exact absurd (by simp [hhost]) (hs.noIssue cw)
  · exact absurd (hs.empty.symm.trans hfull) nofun
  · rw [e]
    exact resetUnused_resetUnit s (hrest hhost)
  · rw [e]
    exact { hs with noIssue := hrest hhost }
  · rwa [e]

/-- Settles O10: the reset leaves the unit unused, and every step after it keeps it so. -/
theorem resetAbandonsCommandsForGood : Obligations.ResetAbandonsCommandsForGood := by
  intro n s rest hhost hrest
  obtain ⟨t, hrun, ht⟩ := stepN_keeps (fun _ _ => ResetUnused.step) n (resetUnused_resetUnit s hrest)
  refine ⟨t, (stepN_of_step n (step_reset hhost)).trans hrun, ht.empty, ht.idle, fun v hv => ?_⟩
  obtain rfl := ht.slots v hv
  exact ⟨rfl, memRead_nil⟩

end Sys2Proof.Machine
end
